-- ==== Sys2Proof/Word.lean ====
section
/-! DEFINITION. The bit-vector widths of the core (10_state.md R15, 30_encoding.md R53). -/

namespace Sys2Proof

/-- A byte: a V register, a timer, a memory cell, the field NN. -/
abbrev Byte := BitVec 8

/-- A 16-bit word: I, PC, a return address, an instruction word. -/
abbrev Word := BitVec 16

/-- A 4-bit field: a register index X or Y, or the count N. -/
abbrev Nibble := BitVec 4

/-- A 12-bit address field NNN. -/
abbrev Addr := BitVec 12

end Sys2Proof
end

