-- ==== Sys2Proof/Config.lean ====
section
/-! DEFINITION. The construction-time configuration of the core (00_scope.md R2, R7 to R9) and the
free values of the model: what the spec leaves OPEN and nothing here gives a value. -/

namespace Sys2Proof

/-- The two modes the core can be built in (00_scope.md R2). -/
inductive Mode where
  | base
  | extended
  deriving DecidableEq, Repr

/-- What the decoder does with an Unknown word (00_scope.md R8, 60_exceptions.md R121). -/
inductive UnknownPolicy where
  | fail
  | skip
  deriving DecidableEq, Repr

/-- The quirk record (00_scope.md R9), its fields in the order of the rule's table. -/
structure Quirks where
  shiftUsesVy : Bool
  jumpUsesVx : Bool
  loadStoreIncrementsI : Bool
  logicResetsVf : Bool
  deriving DecidableEq, Repr

/-- The value of the quirk record that a mode selects: the table of 00_scope.md R9. -/
def Quirks.ofMode : Mode → Quirks
  | .base =>
    { shiftUsesVy := true, jumpUsesVx := false, loadStoreIncrementsI := true, logicResetsVf := false }
  | .extended =>
    { shiftUsesVy := false, jumpUsesVx := true, loadStoreIncrementsI := false, logicResetsVf := false }

/-- The parameters that exist only with `SCHIP_EXTRA`: BIG_FONT_BASE and BIG_FONT_DATA
(45_superchip.md R118). -/
structure BigFont where
  base : Word
  data : List Byte
  deriving DecidableEq, Repr

/-- The configuration INIT is given (00_scope.md R8), with FONT_BASE kept a parameter
(92_eei_decisions.md D2). DESIGN CHOICE (log 6): `bigFont` is present exactly when `SCHIP_EXTRA` is true. -/
structure Config where
  mode : Mode
  unknownPolicy : UnknownPolicy
  quirks : Quirks
  fontBase : Word
  bigFont : Option BigFont
  deriving DecidableEq, Repr

/-- `SCHIP_EXTRA` (00_scope.md R8). -/
def Config.schipExtra (c : Config) : Bool := c.bigFont.isSome

/-- FREE VALUE (log 4): byte number `n` (from 0) that the random source yields after it was seeded with
`seed`. The parameter `RNG` is OPEN (10_state.md R33, 92_eei_decisions.md D29). -/
opaque Config.rngByte : (seed n : Nat) → Byte

/-- FREE VALUE (log 6): byte `k` of the OPEN parameter BIG_FONT_DATA (45_superchip.md R118). -/
opaque Config.bigFontByte : (k : Nat) → Byte

/-- FREE VALUE (log 6): where in the reserved low region the OPEN parameter BIG_FONT_BASE lies, counted
from 0x0A0; every value keeps the 160 bytes inside 0x0A0 to 0x1FF, clear of the font at 0x050. -/
opaque Config.bigFontOffset : Fin 193

end Sys2Proof
end

