-- ==== Sys2Proof/Syntax.lean ====
section
/-! DEFINITION. The instructions: one constructor per row of spec/opcode_table.json, in the table's
order (30_encoding.md R56). The docstring of a constructor gives the row's pattern and mnemonic. -/

namespace Sys2Proof

inductive Instr where
  /-- 00E0 CLS -/
  | cls
  /-- 00EE RET -/
  | ret
  /-- 00CN SCD N -/
  | scd (n : Nibble)
  /-- 00FB SCR -/
  | scr
  /-- 00FC SCL -/
  | scl
  /-- 00FD EXIT -/
  | exit
  /-- 00FE LOW -/
  | low
  /-- 00FF HIGH -/
  | high
  /-- 1NNN JP NNN -/
  | jp (nnn : Addr)
  /-- 2NNN CALL NNN -/
  | call (nnn : Addr)
  /-- 3XNN SE VX, NN -/
  | seImm (x : Nibble) (nn : Byte)
  /-- 4XNN SNE VX, NN -/
  | sneImm (x : Nibble) (nn : Byte)
  /-- 5XY0 SE VX, VY -/
  | seReg (x y : Nibble)
  /-- 6XNN LD VX, NN -/
  | ldImm (x : Nibble) (nn : Byte)
  /-- 7XNN ADD VX, NN -/
  | addImm (x : Nibble) (nn : Byte)
  /-- 8XY0 LD VX, VY -/
  | ldReg (x y : Nibble)
  /-- 8XY1 OR VX, VY -/
  | or (x y : Nibble)
  /-- 8XY2 AND VX, VY -/
  | and (x y : Nibble)
  /-- 8XY3 XOR VX, VY -/
  | xor (x y : Nibble)
  /-- 8XY4 ADD VX, VY -/
  | add (x y : Nibble)
  /-- 8XY5 SUB VX, VY -/
  | sub (x y : Nibble)
  /-- 8XY6 SHR VX, VY -/
  | shr (x y : Nibble)
  /-- 8XY7 SUBN VX, VY -/
  | subn (x y : Nibble)
  /-- 8XYE SHL VX, VY -/
  | shl (x y : Nibble)
  /-- 9XY0 SNE VX, VY -/
  | sneReg (x y : Nibble)
  /-- ANNN LD I, NNN -/
  | ldI (nnn : Addr)
  /-- BNNN JP V0, NNN or JP VX, NNN (X = NNN[11:8]) -/
  | jpOff (nnn : Addr)
  /-- CXNN RND VX, NN -/
  | rnd (x : Nibble) (nn : Byte)
  /-- DXYN DRW VX, VY, N -/
  | drw (x y n : Nibble)
  /-- DXY0 DRW VX, VY, 0: the 16 × 16 draw -/
  | drwLarge (x y : Nibble)
  /-- EX9E SKP VX -/
  | skp (x : Nibble)
  /-- EXA1 SKNP VX -/
  | sknp (x : Nibble)
  /-- FX07 LD VX, DT -/
  | ldVDt (x : Nibble)
  /-- FX0A LD VX, K -/
  | ldVK (x : Nibble)
  /-- FX15 LD DT, VX -/
  | ldDtV (x : Nibble)
  /-- FX18 LD ST, VX -/
  | ldStV (x : Nibble)
  /-- FX1E ADD I, VX -/
  | addI (x : Nibble)
  /-- FX29 LD F, VX -/
  | ldF (x : Nibble)
  /-- FX30 LD HF, VX -/
  | ldHF (x : Nibble)
  /-- FX33 LD B, VX -/
  | ldB (x : Nibble)
  /-- FX55 LD [I], VX -/
  | ldMemV (x : Nibble)
  /-- FX65 LD VX, [I] -/
  | ldVMem (x : Nibble)
  /-- FX75 LD R, VX -/
  | ldRV (x : Nibble)
  /-- FX85 LD VX, R -/
  | ldVR (x : Nibble)
  deriving DecidableEq, Repr

end Sys2Proof
end

