-- ==== Sys2Proof/WellFormed.lean ====
section
/-! DEFINITION. Which instructions exist in a configuration. The fields' widths are in the types of
Syntax.lean, so what is left to check is the gating of 30_encoding.md R56, R58 and R59. -/

namespace Sys2Proof

/-- The instruction has a row that decodes in `mode` with `SCHIP_EXTRA = extra` (30_encoding.md R56):
the SUPER-CHIP rows need `Extended`, the extra rows also `SCHIP_EXTRA`, and the DXYN row excludes N = 0
in `Extended` mode, where the DXY0 row takes the word. -/
def Instr.wellFormed (mode : Mode) (extra : Bool) : Instr → Bool
  | .scd _ | .low | .high | .drwLarge _ _ | .ldRV _ | .ldVR _ => mode == .extended
  | .scr | .scl | .exit | .ldHF _ => mode == .extended && extra
  | .drw _ _ n => !(mode == .extended && n == 0)
  | .cls | .ret | .jp _ | .call _ | .seImm _ _ | .sneImm _ _ | .seReg _ _ | .ldImm _ _ | .addImm _ _
  | .ldReg _ _ | .or _ _ | .and _ _ | .xor _ _ | .add _ _ | .sub _ _ | .shr _ _ | .subn _ _ | .shl _ _
  | .sneReg _ _ | .ldI _ | .jpOff _ | .rnd _ _ | .skp _ | .sknp _ | .ldVDt _ | .ldVK _ | .ldDtV _
  | .ldStV _ | .addI _ | .ldF _ | .ldB _ | .ldMemV _ | .ldVMem _ => true

/-- The parameters of a large font fit: 160 bytes (16 glyphs of 10) inside the reserved low region
0x000 to 0x1FF, clear of the 80 bytes of the font table (45_superchip.md R118). -/
def BigFont.wf (fontBase : Nat) (f : BigFont) : Bool :=
  f.data.length == 160 && decide (f.base.toNat + 160 ≤ 0x200)
    && decide (f.base.toNat + 160 ≤ fontBase ∨ fontBase + 80 ≤ f.base.toNat)

/-- The configuration is one the spec allows: the font table fits the reserved low region
(92_eei_decisions.md D2: FONT_BASE in 0x000 to 0x1B0), and so does the large font if there is one. The
quirk record is a parameter of its own (00_scope.md R9; log 19). -/
def Config.wf (c : Config) : Bool :=
  decide (c.fontBase.toNat ≤ 0x1B0) && c.bigFont.all (BigFont.wf c.fontBase.toNat)

end Sys2Proof
end

