-- ==== Sys2Proof/Decode.lean ====
section
/-! DEFINITION. The decoder (30_encoding.md R52 to R61), total on words and on bytes, and after it the
encoder, written from the same opcode map R56. -/

namespace Sys2Proof

/-! ## The fields of a word (30_encoding.md R53) -/

/-- op = w[15:12]. -/
def opField (w : Word) : Nibble := w.extractLsb' 12 4

/-- X = w[11:8]. -/
def xField (w : Word) : Nibble := w.extractLsb' 8 4

/-- Y = w[7:4]. -/
def yField (w : Word) : Nibble := w.extractLsb' 4 4

/-- N = w[3:0]. -/
def nField (w : Word) : Nibble := w.extractLsb' 0 4

/-- NN = w[7:0]. -/
def nnField (w : Word) : Byte := w.extractLsb' 0 8

/-- NNN = w[11:0]. -/
def nnnField (w : Word) : Addr := w.extractLsb' 0 12

/-! ## The families with more than one row -/

/-- The rows 0NNN (30_encoding.md R56, R60): every fixed nibble must match (R57). -/
def decodeSystem (mode : Mode) (extra : Bool) (w : Word) : Option Instr :=
  if w = 0x00E0 then some .cls
  else if w = 0x00EE then some .ret
  else if mode = .base then none
  else if xField w = 0x0 ∧ yField w = 0xC then some (.scd (nField w))
  else if w = 0x00FE then some .low
  else if w = 0x00FF then some .high
  else if extra = false then none
  else if w = 0x00FB then some .scr
  else if w = 0x00FC then some .scl
  else if w = 0x00FD then some .exit
  else none

/-- The rows 8XYN, selected by N. -/
def decodeArith (x y n : Nibble) : Option Instr :=
  match n.toNat with
  | 0x0 => some (.ldReg x y)
  | 0x1 => some (.or x y)
  | 0x2 => some (.and x y)
  | 0x3 => some (.xor x y)
  | 0x4 => some (.add x y)
  | 0x5 => some (.sub x y)
  | 0x6 => some (.shr x y)
  | 0x7 => some (.subn x y)
  | 0xE => some (.shl x y)
  | _ => none

/-- The rows EXNN, selected by NN. -/
def decodeKey (x : Nibble) (nn : Byte) : Option Instr :=
  if nn = 0x9E then some (.skp x)
  else if nn = 0xA1 then some (.sknp x)
  else none

/-- The rows FXNN that decode in both modes, selected by NN. -/
def decodeMiscBoth (x : Nibble) (nn : Byte) : Option Instr :=
  if nn = 0x07 then some (.ldVDt x)
  else if nn = 0x0A then some (.ldVK x)
  else if nn = 0x15 then some (.ldDtV x)
  else if nn = 0x18 then some (.ldStV x)
  else if nn = 0x1E then some (.addI x)
  else if nn = 0x29 then some (.ldF x)
  else if nn = 0x33 then some (.ldB x)
  else if nn = 0x55 then some (.ldMemV x)
  else if nn = 0x65 then some (.ldVMem x)
  else none

/-- The rows FXNN that decode in `Extended` mode only (30_encoding.md R58, R59), selected by NN. -/
def decodeMiscExtended (extra : Bool) (x : Nibble) (nn : Byte) : Option Instr :=
  if nn = 0x75 then some (.ldRV x)
  else if nn = 0x85 then some (.ldVR x)
  else if nn = 0x30 ∧ extra = true then some (.ldHF x)
  else none

/-- The rows FXNN. -/
def decodeMisc (mode : Mode) (extra : Bool) (x : Nibble) (nn : Byte) : Option Instr :=
  match mode with
  | .base => decodeMiscBoth x nn
  | .extended => (decodeMiscBoth x nn).or (decodeMiscExtended extra x nn)

/-- The rows DXYN and DXY0 (30_encoding.md R56, R58): in `Extended` mode N = 0 is the large draw. -/
def decodeDraw (mode : Mode) (x y n : Nibble) : Instr :=
  if mode = .extended ∧ n = 0 then .drwLarge x y else .drw x y n

/-! ## The decoder -/

/-- The opcode map of 30_encoding.md R56: the instruction of a word in a mode and with a value of
`SCHIP_EXTRA`, or nothing where the word is Unknown (R57). -/
def decode (mode : Mode) (extra : Bool) (w : Word) : Option Instr :=
  let x := xField w
  let y := yField w
  let n := nField w
  let nn := nnField w
  let nnn := nnnField w
  match (opField w).toNat with
  | 0x0 => decodeSystem mode extra w
  | 0x1 => some (.jp nnn)
  | 0x2 => some (.call nnn)
  | 0x3 => some (.seImm x nn)
  | 0x4 => some (.sneImm x nn)
  | 0x5 => if n = 0 then some (.seReg x y) else none
  | 0x6 => some (.ldImm x nn)
  | 0x7 => some (.addImm x nn)
  | 0x8 => decodeArith x y n
  | 0x9 => if n = 0 then some (.sneReg x y) else none
  | 0xA => some (.ldI nnn)
  | 0xB => some (.jpOff nnn)
  | 0xC => some (.rnd x nn)
  | 0xD => some (decodeDraw mode x y n)
  | 0xE => decodeKey x nn
  | _ => decodeMisc mode extra x nn

/-- Why bytes do not decode. -/
inductive DecodeError where
  /-- Fewer than the two bytes every instruction has (30_encoding.md R55). -/
  | truncated (len : Nat)
  /-- The word is Unknown: it matches no row (30_encoding.md R57). -/
  | unknown (w : Word)
  deriving DecidableEq, Repr

/-- The word two bytes make, the first in bits 15 to 8 (20_memory.md R43). -/
def wordOfBytes (hi lo : Byte) : Word := hi ++ lo

/-- Decoding any list of bytes: the instruction of the first two (30_encoding.md R52, R55) with the
bytes that follow, or a rejection by name. -/
def decodeBytes (mode : Mode) (extra : Bool) : List Byte → Except DecodeError (Instr × List Byte)
  | hi :: lo :: rest =>
    match decode mode extra (wordOfBytes hi lo) with
    | some i => .ok (i, rest)
    | none => .error (.unknown (wordOfBytes hi lo))
  | bs => .error (.truncated bs.length)

/-- The decoder on a word numbered as spec/opcode_table.json numbers it: the `nbits` low bits of `w`,
laid out as the two bytes in memory. DESIGN CHOICE (log 18): it reads in `Extended` mode with
`SCHIP_EXTRA`, the one configuration in which every row of the table decodes. -/
def decodeTableWord (nbits w : Nat) : Option Instr :=
  let v := w % 2 ^ nbits
  let hi : Byte := BitVec.ofNat 8 (v / 256)
  let lo : Byte := BitVec.ofNat 8 v
  match decodeBytes .extended true [hi, lo] with
  | .ok (i, _) => some i
  | .error _ => none

/-! ## The encoder -/

/-- The word of an instruction: the patterns of 30_encoding.md R56, nibble by nibble. -/
def encode : Instr → Word
  | .cls => 0x00E0
  | .ret => 0x00EE
  | .scd n => 0x00C#12 ++ n
  | .scr => 0x00FB
  | .scl => 0x00FC
  | .exit => 0x00FD
  | .low => 0x00FE
  | .high => 0x00FF
  | .jp nnn => 0x1#4 ++ nnn
  | .call nnn => 0x2#4 ++ nnn
  | .seImm x nn => 0x3#4 ++ x ++ nn
  | .sneImm x nn => 0x4#4 ++ x ++ nn
  | .seReg x y => 0x5#4 ++ x ++ y ++ 0x0#4
  | .ldImm x nn => 0x6#4 ++ x ++ nn
  | .addImm x nn => 0x7#4 ++ x ++ nn
  | .ldReg x y => 0x8#4 ++ x ++ y ++ 0x0#4
  | .or x y => 0x8#4 ++ x ++ y ++ 0x1#4
  | .and x y => 0x8#4 ++ x ++ y ++ 0x2#4
  | .xor x y => 0x8#4 ++ x ++ y ++ 0x3#4
  | .add x y => 0x8#4 ++ x ++ y ++ 0x4#4
  | .sub x y => 0x8#4 ++ x ++ y ++ 0x5#4
  | .shr x y => 0x8#4 ++ x ++ y ++ 0x6#4
  | .subn x y => 0x8#4 ++ x ++ y ++ 0x7#4
  | .shl x y => 0x8#4 ++ x ++ y ++ 0xE#4
  | .sneReg x y => 0x9#4 ++ x ++ y ++ 0x0#4
  | .ldI nnn => 0xA#4 ++ nnn
  | .jpOff nnn => 0xB#4 ++ nnn
  | .rnd x nn => 0xC#4 ++ x ++ nn
  | .drw x y n => 0xD#4 ++ x ++ y ++ n
  | .drwLarge x y => 0xD#4 ++ x ++ y ++ 0x0#4
  | .skp x => 0xE#4 ++ x ++ 0x9E#8
  | .sknp x => 0xE#4 ++ x ++ 0xA1#8
  | .ldVDt x => 0xF#4 ++ x ++ 0x07#8
  | .ldVK x => 0xF#4 ++ x ++ 0x0A#8
  | .ldDtV x => 0xF#4 ++ x ++ 0x15#8
  | .ldStV x => 0xF#4 ++ x ++ 0x18#8
  | .addI x => 0xF#4 ++ x ++ 0x1E#8
  | .ldF x => 0xF#4 ++ x ++ 0x29#8
  | .ldHF x => 0xF#4 ++ x ++ 0x30#8
  | .ldB x => 0xF#4 ++ x ++ 0x33#8
  | .ldMemV x => 0xF#4 ++ x ++ 0x55#8
  | .ldVMem x => 0xF#4 ++ x ++ 0x65#8
  | .ldRV x => 0xF#4 ++ x ++ 0x75#8
  | .ldVR x => 0xF#4 ++ x ++ 0x85#8

end Sys2Proof
end

