-- ==== Sys2Proof/Machine/Boot.lean ====
section
/-! DEFINITION. What INIT leaves in memory before the program (20_memory.md R38, R39; 70_reset_and_hazards.md
R139), and the configurations the model makes up: that of `State.reset` and that of `withFetchWord`. -/

namespace Sys2Proof.Machine

/-- MEM_SIZE: the addresses are 0x000 to 0xFFF (00_scope.md R7). -/
def memSize : Nat := 0x1000

/-- PROG_BASE (00_scope.md R7): the entry point and the first byte of the program. -/
def progBase : Nat := 0x200

/-- PROG_MAX (00_scope.md R7). -/
def progMax : Nat := 3584

/-- The 80 bytes of the font table, glyph by glyph, top row first (20_memory.md R39). -/
def fontTable : List Byte :=
  [0xF0, 0x90, 0x90, 0x90, 0xF0] ++
  [0x20, 0x60, 0x20, 0x20, 0x70] ++
  [0xF0, 0x10, 0xF0, 0x80, 0xF0] ++
  [0xF0, 0x10, 0xF0, 0x10, 0xF0] ++
  [0x90, 0x90, 0xF0, 0x10, 0x10] ++
  [0xF0, 0x80, 0xF0, 0x10, 0xF0] ++
  [0xF0, 0x80, 0xF0, 0x90, 0xF0] ++
  [0xF0, 0x10, 0x20, 0x40, 0x40] ++
  [0xF0, 0x90, 0xF0, 0x90, 0xF0] ++
  [0xF0, 0x90, 0xF0, 0x10, 0xF0] ++
  [0xF0, 0x90, 0xF0, 0x90, 0x90] ++
  [0xE0, 0x90, 0xE0, 0x90, 0xE0] ++
  [0xF0, 0x80, 0x80, 0x80, 0xF0] ++
  [0xE0, 0x90, 0x90, 0x90, 0xE0] ++
  [0xF0, 0x80, 0xF0, 0x80, 0xF0] ++
  [0xF0, 0x80, 0xF0, 0x80, 0x80]

/-- Byte `a` after the zero fill and the font (70_reset_and_hazards.md R139 steps 2 and 3). -/
def fontByte (c : Config) (a : Nat) : Byte :=
  if c.fontBase.toNat ≤ a ∧ a < c.fontBase.toNat + 80 then fontTable.getD (a - c.fontBase.toNat) 0 else 0

/-- What an address that `State.mem` does not list reads as: the byte INIT leaves there before it loads the
program (20_memory.md R38; 70_reset_and_hazards.md R139 steps 2 and 3). The large font is written only with
`SCHIP_EXTRA`, after the font, in the reserved low region (45_superchip.md R118). -/
def resetByte (c : Config) (a : Nat) : Byte :=
  match c.bigFont with
  | none => fontByte c a
  | some f =>
    if a < progBase ∧ f.base.toNat ≤ a ∧ a < f.base.toNat + 160 then f.data.getD (a - f.base.toNat) 0
    else fontByte c a

/-- The configuration of `State.reset`. DESIGN CHOICE (log 2): the host chooses the mode, and this is
`Extended`; the rest are the decided values of 00_scope.md R7 to R9 (`Fail`, FONT_BASE 0x050,
`SCHIP_EXTRA` false). -/
def resetConfig : Config where
  mode := .extended
  unknownPolicy := .fail
  quirks := .ofMode .extended
  fontBase := 0x050
  bigFont := none

/-- The seed of `State.reset`. DESIGN CHOICE (log 5): the host supplies the seed at INIT. -/
def resetSeed : Nat := 0

/-- A large font at an open place with open bytes (log 6), used where the model itself has to make up a
configuration with `SCHIP_EXTRA`. -/
def openBigFont : BigFont where
  base := BitVec.ofNat 16 (0x0A0 + Config.bigFontOffset.val)
  data := (List.range 160).map Config.bigFontByte

/-- The decoder, in the configuration a core was built with (30_encoding.md R63). -/
def decodeIn (c : Config) (w : Word) : Option Instr := decode c.mode c.schipExtra w

/-- DESIGN CHOICE (log 13): the configuration INIT must be given for `w` to decode: `c` itself where it
decodes there or nowhere, else `c` in `Extended` mode, else that with `SCHIP_EXTRA` and an open large font. -/
def configFor (c : Config) (w : Word) : Config :=
  let ext : Config := { c with mode := .extended }
  let full : Config := { ext with fontBase := 0x050, bigFont := some openBigFont }
  if (decodeIn c w).isSome then c
  else if (decodeIn ext w).isSome then ext
  else if (decodeIn full w).isSome then full
  else c

end Sys2Proof.Machine
end

