-- ==== Sys2Proof/Machine/State.lean ====
section
/-! DEFINITION. The state of the core (10_state.md R15), its errors (60_exceptions.md R119), the refusals of
the model, and the state after reset (10_state.md R35). -/

namespace Sys2Proof.Machine

/-- The two grids of the display (10_state.md R28). -/
inductive Resolution where
  /-- 64 columns × 32 rows. -/
  | lo
  /-- 128 columns × 64 rows. -/
  | hi
  deriving DecidableEq, Repr

/-- The control state (10_state.md R31). -/
inductive Ctrl where
  | running
  /-- Entered by FX0A; `x` is the register the key number goes to. -/
  | waitingForKey (x : Nibble)
  /-- Entered by 00FD, which exists only with `SCHIP_EXTRA` (45_superchip.md R117). -/
  | halted
  deriving DecidableEq, Repr

/-- The state of the random source (10_state.md R33; log 4): the seed it was given and how many bytes it has
yielded since. -/
structure RngState where
  seed : Nat
  draws : Nat
  deriving DecidableEq, Repr

/-- Memory as a list of (address, byte) pairs in canonical form (`Memory.wf`); an unlisted address reads as
`resetByte` says (log 10). -/
abbrev Memory := List Host.Cell

/-- A pixel grid as a list of rows, the top row first, each a list of pixels, the leftmost first; true is on
(10_state.md R28; log 11). -/
abbrev Grid := List (List Bool)

/-- The state record of 10_state.md R15, with the configuration, which nothing writes (log 1). -/
structure State where
  /-- The configuration fixed at INIT (00_scope.md R8). -/
  cfg : Config
  /-- The 4096 bytes of memory (20_memory.md R36). -/
  mem : Memory
  /-- V0 to VF (10_state.md R16). -/
  v : Vector Byte 16
  /-- The index register (10_state.md R20). -/
  i : Word
  /-- The program counter (10_state.md R21). -/
  pc : Word
  /-- The return-address stack, the top last (10_state.md R24). -/
  stack : List Word
  /-- The delay timer (10_state.md R27). -/
  dt : Byte
  /-- The sound timer (10_state.md R27). -/
  st : Byte
  /-- The current grid (10_state.md R28). -/
  res : Resolution
  /-- The framebuffer (10_state.md R28). -/
  fb : Grid
  /-- The keypad, true = pressed (10_state.md R30). -/
  keys : Vector Bool 16
  /-- The control state (10_state.md R31). -/
  ctrl : Ctrl
  /-- The SUPER-CHIP flag store (10_state.md R32). -/
  flags : Vector Byte 16
  /-- The random source (10_state.md R33). -/
  rng : RngState
  deriving DecidableEq, Repr

/-- The errors of 60_exceptions.md R119. Every one ends the transaction that found it and leaves the state as
it was (R120), which is safe: the model stops exactly where the spec says the STEP fails. -/
inductive Fault where
  /-- Raised by the decoder under the policy `Fail`: the word and its address. Safe. -/
  | unknownOpcode (w : Word) (pc0 : Word)
  /-- Raised by 2NNN with depth 16: the instruction's address. Safe. -/
  | stackOverflow (pc0 : Word)
  /-- Raised by 00EE with depth 0: the instruction's address. Safe. -/
  | stackUnderflow (pc0 : Word)
  /-- Raised by the fetch, DXYN, DXY0, FX33, FX55 and FX65: the first byte address above 0xFFF. Safe. -/
  | outOfBoundsAccess (a : Nat)
  /-- Raised by INIT only: the program's length. Safe. -/
  | romTooLarge (len : Nat)
  /-- Raised by nothing: every register index is a 4-bit field (10_state.md R17; log 14). Safe. -/
  | invalidRegister (index : Nat)
  deriving DecidableEq, Repr

/-- What the model gives no meaning. -/
inductive Refusal where
  /-- Raised by `exec` for an instruction without a meaning yet; no arm of this model does. Safe. -/
  | notModelled (mnemonic : String)
  /-- Raised by KEY_DOWN and KEY_UP with a key number outside 0 to 15, a call outside the interface
  (60_exceptions.md R133; log 15). Safe. -/
  | keyOutOfRange (k : Nat)
  deriving DecidableEq, Repr

/-- W, the width of the current grid (10_state.md R28). -/
def Resolution.width : Resolution → Nat
  | .lo => 64
  | .hi => 128

/-- H, the height of the current grid (10_state.md R28). -/
def Resolution.height : Resolution → Nat
  | .lo => 32
  | .hi => 64

/-- The resolution INIT selects (10_state.md R29). -/
def Resolution.ofMode : Mode → Resolution
  | .base => .lo
  | .extended => .hi

/-- The grid of a resolution with every pixel off. -/
def Grid.blank (r : Resolution) : Grid := List.replicate r.height (List.replicate r.width false)

/-- The state INIT leaves with a program of no bytes: the table of 10_state.md R35. -/
def State.fresh (c : Config) (seed : Nat) : State where
  cfg := c
  mem := []
  v := Vector.replicate 16 0
  i := 0
  pc := 0x200
  stack := []
  dt := 0
  st := 0
  res := .ofMode c.mode
  fb := .blank (.ofMode c.mode)
  keys := Vector.replicate 16 false
  ctrl := .running
  flags := Vector.replicate 16 0
  rng := { seed := seed, draws := 0 }

/-- The machine right after reset: INIT with the configuration `resetConfig` (log 2), the seed `resetSeed`
(log 5) and no program (log 13). -/
def State.reset : State := .fresh resetConfig resetSeed

end Sys2Proof.Machine
end

