-- ==== Sys2Proof/Machine/Ops.lean ====
section
/-! DEFINITION. The named operations over registers, memory and the stack, and raising an error. -/

namespace Sys2Proof.Machine

/-- What a STEP or an instruction answers. -/
abbrev Result := Host.Outcome State Fault Refusal

/-! ## Errors -/

/-- Raising an error (00_scope.md R13; 60_exceptions.md R120, R124): there is no trap entry, so no register is
saved, no mode changes and control goes nowhere. The STEP's result is the error, and the state stays that of the
STEP's start, which whoever issued the STEP still has (log 7). There is no return from an error (R124). -/
def raise (e : Fault) : Result := .fault e

/-- Go on with a value, or raise the error found on the way to it. -/
def orRaise {α : Type} (r : Except Fault α) (k : α → Result) : Result :=
  match r with
  | .ok a => k a
  | .error e => raise e

/-- The code of an error (60_exceptions.md R119). -/
def Fault.code : Fault → Nat
  | .unknownOpcode _ _ => 1
  | .stackOverflow _ => 2
  | .stackUnderflow _ => 3
  | .outOfBoundsAccess _ => 4
  | .romTooLarge _ => 5
  | .invalidRegister _ => 6

/-! ## Registers -/

/-- `V[x]` (10_state.md R16). -/
def State.reg (s : State) (x : Nibble) : Byte := s.v[x.toNat]'x.isLt

/-- `V[x] <- b` (10_state.md R16). -/
def State.setReg (s : State) (x : Nibble) (b : Byte) : State := { s with v := s.v.set x.toNat b x.isLt }

def State.setV (s : State) (v : Vector Byte 16) : State := { s with v := v }
def State.setI (s : State) (a : Word) : State := { s with i := a }
def State.setPc (s : State) (a : Word) : State := { s with pc := a }
def State.setStack (s : State) (l : List Word) : State := { s with stack := l }
def State.setDt (s : State) (b : Byte) : State := { s with dt := b }
def State.setSt (s : State) (b : Byte) : State := { s with st := b }
def State.setDisplay (s : State) (r : Resolution) (g : Grid) : State := { s with res := r, fb := g }
def State.setKeys (s : State) (k : Vector Bool 16) : State := { s with keys := k }
def State.setCtrl (s : State) (c : Ctrl) : State := { s with ctrl := c }
def State.setFlags (s : State) (f : Vector Byte 16) : State := { s with flags := f }
def State.setRng (s : State) (r : RngState) : State := { s with rng := r }
def State.setMem (s : State) (m : Memory) : State := { s with mem := m }

/-- The fetch's advance and a taken skip: `pc <- PC + 2` (30_encoding.md R64, R65). In 16 bits; below 0xFFFE that
is the exact sum, and no run reaches more (10_state.md R22; log 9). -/
def State.advance (s : State) : State := s.setPc (s.pc + 2)

/-- pc0, the address of the executing instruction, whose fetch has advanced PC by 2 (30_encoding.md R63; log 8). -/
def State.pc0 (s : State) : Word := s.pc - 2

/-- Writes bytes to V[k], V[k+1], ... in order. -/
def putBytes : List Byte → Nat → Vector Byte 16 → Vector Byte 16
  | [], _, v => v
  | b :: bs, k, v => putBytes bs (k + 1) (v.setIfInBounds k b)

/-- `keys[k]` (10_state.md R30). -/
def State.key (s : State) (k : Nibble) : Bool := s.keys[k.toNat]'k.isLt

/-- The lowest-numbered pressed key, if any (60_exceptions.md R128). -/
def lowestPressed (keys : Vector Bool 16) : Option Nat :=
  (List.range 16).find? fun k => keys.toList.getD k false

/-- `(r, rng) <- RNG.next(rng)` (10_state.md R33, 41_alu.md R87): the byte is the free value `Config.rngByte`. -/
def RngState.next (r : RngState) : Byte × RngState :=
  (Config.rngByte r.seed r.draws, { r with draws := r.draws + 1 })

/-! ## Memory -/

/-- The byte at `a`: the listed one, or what an unlisted address reads as (`d`). -/
def Memory.read (d : Nat → Byte) : Memory → Nat → Byte
  | [], a => d a
  | (k, b) :: m, a => if k = a then b else Memory.read d m a

/-- The list with the cell `(a, b)`, left out when `b` is what an unlisted `a` reads as. -/
def Memory.cons (d : Nat → Byte) (a : Nat) (b : Byte) (m : Memory) : Memory := if b = d a then m else (a, b) :: m

/-- Memory with byte `b` at `a`, in canonical form. -/
def Memory.write (d : Nat → Byte) : Memory → Nat → Byte → Memory
  | [], a, b => Memory.cons d a b []
  | (k, c) :: m, a, b =>
    if a < k then Memory.cons d a b ((k, c) :: m)
    else if a = k then Memory.cons d a b m
    else (k, c) :: Memory.write d m a b

/-- The canonical form: addresses strictly rising, inside the address space, and no cell that holds what its
address reads as when it is not listed. -/
abbrev Memory.wf (d : Nat → Byte) (m : Memory) : Prop :=
  m.Pairwise (fun a b => a.1 < b.1) ∧ ∀ c ∈ m, c.1 < memSize ∧ c.2 ≠ d c.1

/-- `mem[a]` (20_memory.md R36). -/
def State.byteAt (s : State) (a : Nat) : Byte := Memory.read (resetByte s.cfg) s.mem a

/-- `mem[a] ++ mem[a+1]`, the byte at the lower address in the high bits (20_memory.md R43). -/
def State.wordAt (s : State) (a : Nat) : Word := wordOfBytes (s.byteAt a) (s.byteAt (a + 1))

/-- `mem[a] <- b`. -/
def State.putByte (s : State) (a : Nat) (b : Byte) : State :=
  s.setMem (Memory.write (resetByte s.cfg) s.mem a b)

/-- Writes bytes at `a`, `a+1`, ... in order. -/
def State.putBytesAt (s : State) (a : Nat) : List Byte → State
  | [] => s
  | b :: bs => (s.putByte a b).putBytesAt (a + 1) bs

/-- The check of every byte address `a` to `a + n - 1`, computed exactly: the first one above 0xFFF is the error
(20_memory.md R40, R41; 42_index_memory.md R88). -/
def checkRange (a n : Nat) : Except Fault Unit :=
  match (List.range n).find? fun k => decide (memSize ≤ a + k) with
  | some k => .error (.outOfBoundsAccess (a + k))
  | none => .ok ()

/-- The n bytes from `a` on, all addresses checked first (20_memory.md R40). -/
def State.memRead (s : State) (a n : Nat) : Except Fault (List Byte) :=
  (checkRange a n).map fun _ => (List.range n).map fun k => s.byteAt (a + k)

/-- The n big-endian words from `a` on, all 2n addresses checked first (20_memory.md R40, R43). -/
def State.memReadWords (s : State) (a n : Nat) : Except Fault (List Word) :=
  (checkRange a (2 * n)).map fun _ => (List.range n).map fun k => s.wordAt (a + 2 * k)

/-- Writes bytes from `a` on, all addresses checked before the first write (20_memory.md R41). -/
def State.memWrite (s : State) (a : Nat) (bs : List Byte) : Except Fault State :=
  (checkRange a bs.length).map fun _ => s.putBytesAt a bs

/-- The fetch's read: `MemRead(PC, 2)` (30_encoding.md R64). -/
def State.fetch (s : State) : Except Fault Word :=
  (checkRange s.pc.toNat 2).map fun _ => s.wordAt s.pc.toNat

/-! ## The return-address stack -/

/-- `push(a)` (10_state.md R25). -/
def State.push (s : State) (a : Word) : Except Fault State :=
  if s.stack.length = 16 then .error (.stackOverflow s.pc0) else .ok (s.setStack (s.stack ++ [a]))

/-- `pop()` (10_state.md R26). -/
def State.pop (s : State) : Except Fault (Word × State) :=
  match s.stack.getLast? with
  | none => .error (.stackUnderflow s.pc0)
  | some a => .ok (a, s.setStack s.stack.dropLast)

end Sys2Proof.Machine
end

