-- ==== Sys2Proof/Machine/Operands.lean ====
section
/-! DEFINITION. The operand forms: how an instruction's fields, registers and quirks select a value
(00_scope.md R9; 30_encoding.md R53, R54). -/

namespace Sys2Proof.Machine

/-- `zext_16(NNN)` (30_encoding.md R54). -/
def zextAddr (nnn : Addr) : Word := nnn.setWidth 16

/-- `zext_16(v)` of a byte (00_scope.md R10). -/
def zextByte (b : Byte) : Word := b.setWidth 16

/-- The offset register of BNNN: VX with X = NNN[11:8] under `jump_uses_vx`, else V0 (40_flow.md R70). -/
def jumpReg (q : Quirks) (nnn : Addr) : Nibble := if q.jumpUsesVx then nnn.extractLsb' 8 4 else 0

/-- The target of BNNN: `zext_16(NNN) + zext_16(V[r])`, at most 0x10FE (40_flow.md R70). -/
def State.jumpTarget (s : State) (nnn : Addr) : Word := zextAddr nnn + zextByte (s.reg (jumpReg s.cfg.quirks nnn))

/-- The source of a shift: VY under `shift_uses_vy`, else VX (41_alu.md R85, R86). -/
def State.shiftSource (s : State) (x y : Nibble) : Byte := if s.cfg.quirks.shiftUsesVy then s.reg y else s.reg x

/-- The low nibble of VX, `V[X] & 0x0F`: a key number or a glyph number (44_timers_keypad.md R104, 42_index_memory.md
R91). -/
def State.lowNibble (s : State) (x : Nibble) : Nibble := (s.reg x).setWidth 4

/-- The address of the glyph of VX's digit: `FONT_BASE + 5 * (V[X] & 0x0F)` (42_index_memory.md R91; log 21). -/
def State.glyphAddr (s : State) (x : Nibble) : Word := s.cfg.fontBase + BitVec.ofNat 16 (5 * (s.lowNibble x).toNat)

/-- BIG_FONT_BASE (45_superchip.md R118). Without `SCHIP_EXTRA` the parameter does not exist and FX30 does not decode;
a core that ran it all the same would have none, and the model then takes an open place (log 6). -/
def bigFontBase (c : Config) : Word := (c.bigFont.getD openBigFont).base

/-- The address of the large glyph of VX's digit: `BIG_FONT_BASE + 10 * (V[X] & 0x0F)` (45_superchip.md R118; log 21). -/
def State.bigGlyphAddr (s : State) (x : Nibble) : Word :=
  bigFontBase s.cfg + BitVec.ofNat 16 (10 * (s.lowNibble x).toNat)

/-- The bytes `V[0] ++ V[1] ++ ... ++ V[X]` (42_index_memory.md R93, 45_superchip.md R113). -/
def State.regsUpTo (s : State) (x : Nibble) : List Byte :=
  (List.range (x.toNat + 1)).map fun k => s.reg (BitVec.ofNat 4 k)

/-- The bytes `flags[0]` to `flags[X]` (45_superchip.md R114). -/
def State.flagsUpTo (s : State) (x : Nibble) : List Byte :=
  (List.range (x.toNat + 1)).map fun k => s.flags.toList.getD k 0

/-- The decimal digits of a byte, hundreds first, one byte each (42_index_memory.md R92). -/
def bcdDigits (b : Byte) : List Byte :=
  [BitVec.ofNat 8 (b.toNat / 100), BitVec.ofNat 8 (b.toNat / 10 % 10), BitVec.ofNat 8 (b.toNat % 10)]

/-- I after FX55 or FX65: `(I + X + 1) mod 2^16` under `load_store_increments_i`, else unchanged
(42_index_memory.md R93, R94). -/
def State.indexAfter (s : State) (x : Nibble) : Word :=
  if s.cfg.quirks.loadStoreIncrementsI then s.i + BitVec.ofNat 16 (x.toNat + 1) else s.i

/-- The skip of a conditional skip: `if c then pc <- PC + 2` (30_encoding.md R65). -/
def State.skipIf (s : State) (c : Bool) : State := if c then s.advance else s

end Sys2Proof.Machine
end

