-- ==== Sys2Proof/Machine/Flags.lean ====
section
/-! DEFINITION. The flag computations and the writing of VF, which comes last (10_state.md R18, 41_alu.md R75). -/

namespace Sys2Proof.Machine

/-- VF, general register 15 (10_state.md R18). -/
def vf : Nibble := 0xF

/-- A flag value, exactly 0 or 1 (10_state.md R18). -/
def flagByte (c : Bool) : Byte := if c then 1 else 0

/-- The carry of 8XY4: the exact sum exceeds 0xFF (41_alu.md R82). -/
def carry (a b : Byte) : Bool := decide (0xFF < a.toNat + b.toNat)

/-- NOT borrow of `a - b`: `a >= b` (41_alu.md R83, R84). -/
def noBorrow (a b : Byte) : Bool := decide (b.toNat ≤ a.toNat)

/-- The bit 8XY6 shifts out: `src[0]` (41_alu.md R85). -/
def shiftedOutRight (src : Byte) : Bool := src.getLsbD 0

/-- The bit 8XYE shifts out: `src[7]` (41_alu.md R86). -/
def shiftedOutLeft (src : Byte) : Bool := src.getLsbD 7

/-- `V[0xF] <- flag`. -/
def State.setFlag (s : State) (c : Bool) : State := s.setReg vf (flagByte c)

/-- `V[X] <- r`, then `V[0xF] <- flag`, so that VF ends as the flag also when X = F (10_state.md R18). -/
def State.setRegFlag (s : State) (x : Nibble) (r : Byte) (c : Bool) : State := (s.setReg x r).setFlag c

/-- `V[X] <- r`, then `V[0xF] <- 0` under `logic_resets_vf` (41_alu.md R79 to R81). -/
def State.setRegLogic (s : State) (x : Nibble) (r : Byte) : State :=
  if s.cfg.quirks.logicResetsVf then (s.setReg x r).setFlag false else s.setReg x r

end Sys2Proof.Machine
end

