-- ==== Sys2Proof/Machine/Alu.lean ====
section
/-! DEFINITION. Register loads, arithmetic, logic and random (41_alu.md). -/

namespace Sys2Proof.Machine

/-- 6XNN LD VX, NN (41_alu.md R76). -/
def execLdImm (x : Nibble) (nn : Byte) (s : State) : Result := .next (s.setReg x nn)

/-- 7XNN ADD VX, NN (41_alu.md R77). -/
def execAddImm (x : Nibble) (nn : Byte) (s : State) : Result := .next (s.setReg x (s.reg x + nn))

/-- 8XY0 LD VX, VY (41_alu.md R78). -/
def execLdReg (x y : Nibble) (s : State) : Result := .next (s.setReg x (s.reg y))

/-- 8XY1 OR VX, VY (41_alu.md R79). -/
def execOr (x y : Nibble) (s : State) : Result := .next (s.setRegLogic x (s.reg x ||| s.reg y))

/-- 8XY2 AND VX, VY (41_alu.md R80). -/
def execAnd (x y : Nibble) (s : State) : Result := .next (s.setRegLogic x (s.reg x &&& s.reg y))

/-- 8XY3 XOR VX, VY (41_alu.md R81). -/
def execXor (x y : Nibble) (s : State) : Result := .next (s.setRegLogic x (s.reg x ^^^ s.reg y))

/-- 8XY4 ADD VX, VY (41_alu.md R82). -/
def execAdd (x y : Nibble) (s : State) : Result :=
  .next (s.setRegFlag x (s.reg x + s.reg y) (carry (s.reg x) (s.reg y)))

/-- 8XY5 SUB VX, VY (41_alu.md R83). -/
def execSub (x y : Nibble) (s : State) : Result :=
  .next (s.setRegFlag x (s.reg x - s.reg y) (noBorrow (s.reg x) (s.reg y)))

/-- 8XY7 SUBN VX, VY (41_alu.md R84). -/
def execSubn (x y : Nibble) (s : State) : Result :=
  .next (s.setRegFlag x (s.reg y - s.reg x) (noBorrow (s.reg y) (s.reg x)))

/-- 8XY6 SHR VX, VY (41_alu.md R85). -/
def execShr (x y : Nibble) (s : State) : Result :=
  .next (s.setRegFlag x (s.shiftSource x y >>> 1) (shiftedOutRight (s.shiftSource x y)))

/-- 8XYE SHL VX, VY (41_alu.md R86). -/
def execShl (x y : Nibble) (s : State) : Result :=
  .next (s.setRegFlag x (s.shiftSource x y <<< 1) (shiftedOutLeft (s.shiftSource x y)))

/-- CXNN RND VX, NN (41_alu.md R87): the byte drawn is a free value (log 4). -/
def execRnd (x : Nibble) (nn : Byte) (s : State) : Result :=
  .next ((s.setRng s.rng.next.2).setReg x (s.rng.next.1 &&& nn))

end Sys2Proof.Machine
end

