-- ==== Sys2Proof/Machine/Screen.lean ====
section
/-! DEFINITION. The display's operations (43_display.md R95 to R97, 45_superchip.md R108, R111, R115, R116). -/

namespace Sys2Proof.Machine

/-- The pixel in column x, row y; a place outside the grid reads as off (log 16). -/
def Grid.pixel (g : Grid) (x y : Nat) : Bool := (List.getD g y []).getD x false

/-- `fb(x, y) <- not fb(x, y)`. -/
def Grid.toggle (g : Grid) (x y : Nat) : Grid := List.modify g y fun row => List.modify row x not

/-- The grid of resolution r whose pixel (x, y) is `f x y`. -/
def Grid.tabulate (r : Resolution) (f : Nat → Nat → Bool) : Grid :=
  (List.range r.height).map fun y => (List.range r.width).map fun x => f x y

/-- The grid has the rows and columns of a resolution. -/
abbrev Grid.fits (r : Resolution) (g : Grid) : Prop := g.length = r.height ∧ ∀ row ∈ g, row.length = r.width

/-- `fb(x, y)` (00_scope.md R11). -/
def State.pixel (s : State) (x y : Nat) : Bool := s.fb.pixel x y

/-! ## Sprites -/

/-- The places a sprite toggles, in drawing order: one for each set bit of each row, the most significant bit
leftmost, each coordinate wrapped on its own (43_display.md R97). -/
def spriteCells {width : Nat} (r : Resolution) (x y : Nat) (rows : List (BitVec width)) : List (Nat × Nat) :=
  rows.zipIdx.flatMap fun p =>
    ((List.range width).filter fun c => p.1.getMsbD c).map fun c => ((x + c) % r.width, (y + p.2) % r.height)

/-- One set bit of a sprite: a pixel that is on makes a collision, and the pixel toggles (43_display.md R97). -/
def plot (acc : Grid × Bool) (p : Nat × Nat) : Grid × Bool :=
  (acc.1.toggle p.1 p.2, acc.2 || acc.1.pixel p.1 p.2)

/-- `draw_sprite(x, y, rows, width)`: the new framebuffer and the collision flag (43_display.md R97). -/
def drawSprite {width : Nat} (r : Resolution) (g : Grid) (x y : Nat) (rows : List (BitVec width)) : Grid × Bool :=
  (spriteCells r x y rows).foldl plot (g, false)

/-- Draws a sprite and sets VF to the collision, last (43_display.md R100, 45_superchip.md R112). -/
def State.draw {width : Nat} (s : State) (x y : Nibble) (rows : List (BitVec width)) : State :=
  let d := drawSprite s.res s.fb (s.reg x).toNat (s.reg y).toNat rows
  (s.setDisplay s.res d.1).setFlag d.2

/-! ## Clearing, resolution and scrolling -/

/-- `set_resolution(r)`: the grid of r, every pixel off, also when r is current (45_superchip.md R108). -/
def State.setResolution (s : State) (r : Resolution) : State := s.setDisplay r (.blank r)

/-- `clear()`: every pixel of the current grid off (43_display.md R96). -/
def State.clear (s : State) : State := s.setDisplay s.res (.blank s.res)

/-- The current grid with each pixel taken from the old one by `f`. -/
def State.remap (s : State) (f : (Nat → Nat → Bool) → Nat → Nat → Bool) : State :=
  s.setDisplay s.res (.tabulate s.res (f s.fb.pixel))

/-- Scrolling down by n rows (45_superchip.md R111). -/
def State.scrollDown (s : State) (n : Nat) : State :=
  s.remap fun old x y => if n ≤ y then old x (y - n) else false

/-- Scrolling right by n columns (45_superchip.md R115). -/
def State.scrollRight (s : State) (n : Nat) : State :=
  s.remap fun old x y => if n ≤ x then old (x - n) y else false

/-- Scrolling left by n columns (45_superchip.md R116). -/
def State.scrollLeft (s : State) (n : Nat) : State :=
  s.remap fun old x y => if x + n < s.res.width then old (x + n) y else false

end Sys2Proof.Machine
end

