-- ==== Sys2Proof/Machine/Display.lean ====
section
/-! DEFINITION. Display instructions (43_display.md). -/

namespace Sys2Proof.Machine

/-- 00E0 CLS (43_display.md R99). -/
def execCls (s : State) : Result := .next s.clear

/-- DXYN DRW VX, VY, N (43_display.md R100): the N bytes at I are checked before anything is drawn. -/
def execDrw (x y n : Nibble) (s : State) : Result :=
  orRaise (s.memRead s.i.toNat n.toNat) fun rows => .next (s.draw x y rows)

end Sys2Proof.Machine
end

