-- ==== Sys2Proof/Machine/Flow.lean ====
section
/-! DEFINITION. Control transfer and conditional skips (40_flow.md). PC already holds the instruction's address + 2
(30_encoding.md R64). -/

namespace Sys2Proof.Machine

/-- 00EE RET (40_flow.md R67). -/
def execRet (s : State) : Result := orRaise s.pop fun p => .next (p.2.setPc p.1)

/-- 1NNN JP NNN (40_flow.md R68). -/
def execJp (nnn : Addr) (s : State) : Result := .next (s.setPc (zextAddr nnn))

/-- 2NNN CALL NNN (40_flow.md R69). -/
def execCall (nnn : Addr) (s : State) : Result := orRaise (s.push s.pc) fun t => .next (t.setPc (zextAddr nnn))

/-- BNNN JP V0, NNN or JP VX, NNN (40_flow.md R70). -/
def execJpOff (nnn : Addr) (s : State) : Result := .next (s.setPc (s.jumpTarget nnn))

/-- 3XNN SE VX, NN (40_flow.md R71). -/
def execSeImm (x : Nibble) (nn : Byte) (s : State) : Result := .next (s.skipIf (s.reg x == nn))

/-- 4XNN SNE VX, NN (40_flow.md R72). -/
def execSneImm (x : Nibble) (nn : Byte) (s : State) : Result := .next (s.skipIf (s.reg x != nn))

/-- 5XY0 SE VX, VY (40_flow.md R73). -/
def execSeReg (x y : Nibble) (s : State) : Result := .next (s.skipIf (s.reg x == s.reg y))

/-- 9XY0 SNE VX, VY (40_flow.md R74). -/
def execSneReg (x y : Nibble) (s : State) : Result := .next (s.skipIf (s.reg x != s.reg y))

end Sys2Proof.Machine
end

