-- ==== Sys2Proof/Machine/IndexMem.lean ====
section
/-! DEFINITION. Index register and memory instructions (42_index_memory.md). -/

namespace Sys2Proof.Machine

/-- ANNN LD I, NNN (42_index_memory.md R89). -/
def execLdI (nnn : Addr) (s : State) : Result := .next (s.setI (zextAddr nnn))

/-- FX1E ADD I, VX (42_index_memory.md R90): mod 2^16, no flag. -/
def execAddI (x : Nibble) (s : State) : Result := .next (s.setI (s.i + zextByte (s.reg x)))

/-- FX29 LD F, VX (42_index_memory.md R91). -/
def execLdF (x : Nibble) (s : State) : Result := .next (s.setI (s.glyphAddr x))

/-- FX33 LD B, VX (42_index_memory.md R92). -/
def execLdB (x : Nibble) (s : State) : Result :=
  orRaise (s.memWrite s.i.toNat (bcdDigits (s.reg x))) fun t => .next t

/-- FX55 LD [I], VX (42_index_memory.md R93). -/
def execLdMemV (x : Nibble) (s : State) : Result :=
  orRaise (s.memWrite s.i.toNat (s.regsUpTo x)) fun t => .next (t.setI (s.indexAfter x))

/-- FX65 LD VX, [I] (42_index_memory.md R94). -/
def execLdVMem (x : Nibble) (s : State) : Result :=
  orRaise (s.memRead s.i.toNat (x.toNat + 1)) fun bs => .next ((s.setV (putBytes bs 0 s.v)).setI (s.indexAfter x))

end Sys2Proof.Machine
end

