-- ==== Sys2Proof/Machine/SuperChip.lean ====
section
/-! DEFINITION. SUPER-CHIP instructions (45_superchip.md). Which of them decode is the decoder's matter
(30_encoding.md R58, R59); an instruction that reaches its meaning runs (60_exceptions.md R126). -/

namespace Sys2Proof.Machine

/-- 00FE LOW (45_superchip.md R109). -/
def execLow (s : State) : Result := .next (s.setResolution .lo)

/-- 00FF HIGH (45_superchip.md R110). -/
def execHigh (s : State) : Result := .next (s.setResolution .hi)

/-- 00CN SCD N (45_superchip.md R111). -/
def execScd (n : Nibble) (s : State) : Result := .next (s.scrollDown n.toNat)

/-- DXY0 DRW VX, VY, 0, the 16 × 16 draw (45_superchip.md R112): the 32 bytes at I are checked before anything is
drawn. -/
def execDrwLarge (x y : Nibble) (s : State) : Result :=
  orRaise (s.memReadWords s.i.toNat 16) fun rows => .next (s.draw x y rows)

/-- FX75 LD R, VX (45_superchip.md R113). -/
def execLdRV (x : Nibble) (s : State) : Result := .next (s.setFlags (putBytes (s.regsUpTo x) 0 s.flags))

/-- FX85 LD VX, R (45_superchip.md R114). -/
def execLdVR (x : Nibble) (s : State) : Result := .next (s.setV (putBytes (s.flagsUpTo x) 0 s.v))

/-- 00FB SCR (45_superchip.md R115). -/
def execScr (s : State) : Result := .next (s.scrollRight 4)

/-- 00FC SCL (45_superchip.md R116). -/
def execScl (s : State) : Result := .next (s.scrollLeft 4)

/-- 00FD EXIT (45_superchip.md R117). -/
def execExit (s : State) : Result := .next (s.setCtrl .halted)

/-- FX30 LD HF, VX (45_superchip.md R118). -/
def execLdHF (x : Nibble) (s : State) : Result := .next (s.setI (s.bigGlyphAddr x))

end Sys2Proof.Machine
end

