-- ==== Sys2Proof/Machine/TimersKeypad.lean ====
section
/-! DEFINITION. Timer and keypad instructions (44_timers_keypad.md). -/

namespace Sys2Proof.Machine

/-- FX07 LD VX, DT (44_timers_keypad.md R101). -/
def execLdVDt (x : Nibble) (s : State) : Result := .next (s.setReg x s.dt)

/-- FX15 LD DT, VX (44_timers_keypad.md R102). -/
def execLdDtV (x : Nibble) (s : State) : Result := .next (s.setDt (s.reg x))

/-- FX18 LD ST, VX (44_timers_keypad.md R103). -/
def execLdStV (x : Nibble) (s : State) : Result := .next (s.setSt (s.reg x))

/-- EX9E SKP VX (44_timers_keypad.md R105). -/
def execSkp (x : Nibble) (s : State) : Result := .next (s.skipIf (s.key (s.lowNibble x)))

/-- EXA1 SKNP VX (44_timers_keypad.md R106). -/
def execSknp (x : Nibble) (s : State) : Result := .next (s.skipIf (!s.key (s.lowNibble x)))

/-- FX0A LD VX, K (44_timers_keypad.md R107): enters the wait; VX is written by the poll that ends it
(60_exceptions.md R128). -/
def execLdVK (x : Nibble) (s : State) : Result := .next (s.setCtrl (.waitingForKey x))

end Sys2Proof.Machine
end

