-- ==== Sys2Proof/Machine/Cycle.lean ====
section
/-! DEFINITION. The parts of the STEP algorithm (30_encoding.md R63): the key-wait poll, the fetch and the
execution of what it fetched; and placing a word where the next step fetches. -/

namespace Sys2Proof.Machine

/-- The start of a STEP: nothing when the STEP ends at once with nothing changed (`Halted`, or no key while
waiting), otherwise the state the fetch starts from, a key wait that found a key being resolved
(30_encoding.md R63; 60_exceptions.md R128). -/
def State.poll (s : State) : Option State :=
  match s.ctrl with
  | .running => some s
  | .halted => none
  | .waitingForKey x =>
    match lowestPressed s.keys with
    | none => none
    | some k => some ((s.setReg x (BitVec.ofNat 8 k)).setCtrl .running)

/-- A fetched word that is Unknown (60_exceptions.md R121): `pc0` is its address, and `s` has PC advanced. -/
def unknownWord (w pc0 : Word) (s : State) : Result :=
  match s.cfg.unknownPolicy with
  | .fail => raise (.unknownOpcode w pc0)
  | .skip => .next s

/-- Fetch, advance PC, decode, execute (30_encoding.md R63, R64). -/
def State.fetchExecute (s : State) : Result :=
  orRaise s.fetch fun w =>
    match decodeIn s.cfg w with
    | none => unknownWord w s.pc s.advance
    | some i => exec i s.advance

/-- Where `withFetchWord` places a word: at PC, or at the entry point when no fetch at PC can succeed. -/
def State.fetchPlace (s : State) : Word := if s.pc.toNat + 1 < memSize then s.pc else 0x200

/-- The state with a configuration, memory kept and in the canonical form of that configuration (log 13). -/
def State.withConfig (s : State) (c : Config) : State :=
  { s with cfg := c, mem := s.mem.filter fun p => p.2 != resetByte c p.1 }

/-- DESIGN CHOICE (log 13): `s` with `w` loaded where the next step fetches, PC there, the control state `Running`,
and a configuration in which `w` decodes if there is one. -/
def State.loadWord (s : State) (w : Word) : State :=
  let a := s.fetchPlace
  let t := ((s.withConfig (configFor s.cfg w)).setPc a).setCtrl .running
  t.putBytesAt a.toNat [w.extractLsb' 8 8, w.extractLsb' 0 8]

end Sys2Proof.Machine
end

