-- ==== Sys2Proof/Machine/Step.lean ====
section
/-! DEFINITION. The STEP transaction (30_encoding.md R63). -/

namespace Sys2Proof.Machine

/-- STEP: `next` is its success, `fault` its error; on an error the state stays that of the STEP's start
(60_exceptions.md R120; log 7). -/
def step (s : State) : Host.Outcome State Fault Refusal :=
  match s.poll with
  | none => .next s
  | some t => t.fetchExecute

/-- `s` with the instruction whose `nbits` low bits are `w` placed so that the next step fetches and runs it; the bits
above are zero, and every instruction is one 16-bit word (30_encoding.md R55; log 13). -/
def State.withFetchWord (s : State) (nbits w : Nat) : State := s.loadWord (BitVec.ofNat 16 (w % 2 ^ nbits))

end Sys2Proof.Machine
end

