-- ==== Sys2Proof/Machine/HostPort.lean ====
section
/-! DEFINITION. The transactions of the host (60_exceptions.md R132): INIT, STEP, TICK, KEY_DOWN, KEY_UP,
FRAMEBUFFER_READ and SOUND_READ. `step` is one of them; the others act between steps (log 12). -/

namespace Sys2Proof.Machine

/-! ## INIT -/

/-- `load(program bytes)`: byte k of the program to `mem[0x200 + k]` (20_memory.md R47). -/
def State.load (s : State) (rom : List Byte) : State := s.putBytesAt progBase rom

/-- INIT with a configuration, a seed and the program bytes (70_reset_and_hazards.md R139). That the configuration
is one the spec allows (`Config.wf`) is the host's to see to (log 17). -/
def initCore (c : Config) (seed : Nat) (rom : List Byte) : Except Fault State :=
  if progMax < rom.length then .error (.romTooLarge rom.length) else .ok ((State.fresh c seed).load rom)

/-! ## TICK, the keys and the read ports -/

/-- One timer's part of TICK: decremented, clamped at 0 (60_exceptions.md R129). -/
def tickTimer (b : Byte) : Byte := if b = 0 then 0 else b - 1

/-- TICK, in every control state (60_exceptions.md R129). -/
def State.tick (s : State) : State := (s.setDt (tickTimer s.dt)).setSt (tickTimer s.st)

/-- KEY_DOWN(k) and KEY_UP(k): `keys[k] <- b`; a key number outside 0 to 15 is refused (60_exceptions.md R133;
log 15). -/
def State.putKey (s : State) (k : Nat) (b : Bool) : Except Refusal State :=
  if h : k < 16 then .ok (s.setKeys (s.keys.set k b h)) else .error (.keyOutOfRange k)

/-- What FRAMEBUFFER_READ returns: W, H and every pixel of the current grid (60_exceptions.md R132, R134; log 11). -/
structure Snapshot where
  width : Nat
  height : Nat
  pixels : Grid
  deriving DecidableEq, Repr

/-- FRAMEBUFFER_READ (60_exceptions.md R134). -/
def State.framebufferRead (s : State) : Snapshot :=
  { width := s.res.width, height := s.res.height, pixels := .tabulate s.res s.fb.pixel }

/-- SOUND_READ: `is_sound_active()` (60_exceptions.md R131). -/
def State.soundActive (s : State) : Bool := s.st != 0

/-! ## The transactions on a core that exists -/

/-- The transactions the host issues one at a time after INIT (60_exceptions.md R132). -/
inductive Transaction where
  | step
  | tick
  | keyDown (k : Nat)
  | keyUp (k : Nat)
  | framebufferRead
  | soundRead
  deriving DecidableEq, Repr

/-- What a transaction returns to the host (60_exceptions.md R132). -/
inductive Response where
  | ok
  | err (e : Fault)
  | refused (r : Refusal)
  | done
  | snapshot (p : Snapshot)
  | sound (active : Bool)
  deriving DecidableEq, Repr

/-- KEY_DOWN and KEY_UP as a transaction: a refused call changes nothing. -/
def State.keyTransaction (s : State) (k : Nat) (b : Bool) : Response × State :=
  match s.putKey k b with
  | .ok t => (.done, t)
  | .error r => (.refused r, s)

/-- One transaction: its result and the state after it. A STEP that fails leaves the state as it was
(60_exceptions.md R120), and the core goes on (R122). -/
def transact (a : Transaction) (s : State) : Response × State :=
  match a with
  | .step =>
    match Machine.step s with
    | .next t => (.ok, t)
    | .fault e => (.err e, s)
    | .refused r => (.refused r, s)
  | .tick => (.done, s.tick)
  | .keyDown k => s.keyTransaction k true
  | .keyUp k => s.keyTransaction k false
  | .framebufferRead => (.snapshot s.framebufferRead, s)
  | .soundRead => (.sound s.soundActive, s)

/-- The state after a list of transactions. -/
def transactAll : List Transaction → State → State
  | [], s => s
  | a :: as, s => transactAll as (transact a s).2

end Sys2Proof.Machine
end

