-- ==== Sys2Proof/Safety.lean ====
section
/-! DEFINITION. What counts as a safe state and a safe run, and the terms in which frames are stated. -/

namespace Sys2Proof.Machine

/-! ## Frames -/

/-- The parts of the state other than the V registers, for frames: what an instruction may change is listed, and
everything else stays. -/
inductive Part where
  | cfg | mem | index | pc | stack | delay | sound | display | keys | ctrl | flags | rng
  deriving DecidableEq, Repr

/-- A part is the same in two states; memory by the read of every byte. -/
def Part.same : Part → State → State → Prop
  | .cfg, s, t => t.cfg = s.cfg
  | .mem, s, t => ∀ a, t.byteAt a = s.byteAt a
  | .index, s, t => t.i = s.i
  | .pc, s, t => t.pc = s.pc
  | .stack, s, t => t.stack = s.stack
  | .delay, s, t => t.dt = s.dt
  | .sound, s, t => t.st = s.st
  | .display, s, t => t.res = s.res ∧ t.fb = s.fb
  | .keys, s, t => t.keys = s.keys
  | .ctrl, s, t => t.ctrl = s.ctrl
  | .flags, s, t => t.flags = s.flags
  | .rng, s, t => t.rng = s.rng

/-- From `s` to `t` at most the parts `ps` and the V registers `rs` change. -/
def Frame (ps : List Part) (rs : Nibble → Prop) (s t : State) : Prop :=
  (∀ p, p ∉ ps → p.same s t) ∧ ∀ r, ¬ rs r → t.reg r = s.reg r

/-- Memory outside the `n` bytes from `a` on reads in `t` as in `s`. -/
def MemSameOutside (a n : Nat) (s t : State) : Prop :=
  ∀ b, (b < a ∨ a + n ≤ b) → t.byteAt b = s.byteAt b

/-! ## Sprites, in the words of 43_display.md R97 -/

/-- The sprite of `n` rows of `width` pixels at (x, y), whose row `r` has the pixel `bit r c` in column `c`, touches the
pixel (px, py) of a grid of W × H. -/
def Touches (W H x y n width : Nat) (bit : Nat → Nat → Bool) (px py : Nat) : Prop :=
  ∃ r c, r < n ∧ c < width ∧ bit r c = true ∧ px = (x + c) % W ∧ py = (y + r) % H

/-- From `s` to `t` the sprite was drawn and VF set: each pixel of the grid it touches turned over, no other changed, and
VF is 1 when one of them was on and 0 when none was. -/
def Drawn (s t : State) (x y n width : Nat) (bit : Nat → Nat → Bool) : Prop :=
  (∀ px py, px < s.res.width → py < s.res.height →
    (Touches s.res.width s.res.height x y n width bit px py → t.pixel px py = !s.pixel px py) ∧
    (¬ Touches s.res.width s.res.height x y n width bit px py → t.pixel px py = s.pixel px py)) ∧
  ((∃ px py, Touches s.res.width s.res.height x y n width bit px py ∧ s.pixel px py = true) → t.reg 0xF = 1) ∧
  ((¬ ∃ px py, Touches s.res.width s.res.height x y n width bit px py ∧ s.pixel px py = true) → t.reg 0xF = 0)

/-! ## Invariants -/

/-- Memory is in the canonical form. -/
def State.MemWf (s : State) : Prop := Memory.wf (resetByte s.cfg) s.mem

/-- The depth is at most 16 and every return address is one a CALL can push, so PC never comes near its 16-bit end
(10_state.md R22, R24). -/
def State.FlowBounded (s : State) : Prop :=
  s.stack.length ≤ 16 ∧ (∀ a ∈ s.stack, a.toNat ≤ 0x1000) ∧ s.pc.toNat ≤ 0x10FE

/-- The framebuffer is the grid of the current resolution, which is `Lo` in `Base` mode (10_state.md R28, R29, R34). -/
def State.ScreenWf (s : State) : Prop := s.fb.fits s.res ∧ (s.cfg.mode = .base → s.res = .lo)

/-- `Halted` only with `SCHIP_EXTRA`, in `Extended` mode (10_state.md R31). -/
def State.CtrlWf (s : State) : Prop := s.ctrl = .halted → s.cfg.mode = .extended ∧ s.cfg.schipExtra = true

/-- The invariant of a core built with an allowed configuration. -/
structure State.Inv (s : State) : Prop where
  cfg : s.cfg.wf = true
  mem : s.MemWf
  flow : s.FlowBounded
  screen : s.ScreenWf
  ctrl : s.CtrlWf

/-! ## Runs -/

/-- A state some run of transactions leads to from INIT with an allowed configuration (60_exceptions.md R132). -/
def Reachable (s : State) : Prop :=
  ∃ c seed rom t as, c.wf = true ∧ initCore c seed rom = .ok t ∧ s = transactAll as t

/-- The errors a STEP may end with (60_exceptions.md R119: `RomTooLarge` is INIT's and `InvalidRegister`
unreachable). -/
def Fault.ofStep : Fault → Prop
  | .unknownOpcode _ _ | .stackOverflow _ | .stackUnderflow _ | .outOfBoundsAccess _ => True
  | .romTooLarge _ | .invalidRegister _ => False

/-- The next STEP succeeds. -/
def StepOk (s : State) : Prop := ∃ t, step s = .next t

end Sys2Proof.Machine
end

