-- ==== Sys2Proof/Certificates/Slice0/Obligations.lean ====
section
/-! DEFINITION. The statements for the provers. Each docstring names the rules of spec/ it formalises. -/

open Sys2Proof Sys2Proof.Machine

/-! ## INIT and reset -/

/-- The rows of the table of R35 but for memory (R19, R23 and R29 among them): what INIT leaves everywhere else. The
clause about `rng` is the model's own form of the random source and of `RNG.seed(seed)` (log 4): the seed INIT was given,
with no byte drawn yet. -/
def Obligations.InitLeavesRegisters : Prop :=
  ∀ (c : Config) (seed : Nat) (rom : List Byte), rom.length ≤ 3584 →
    ∃ s, initCore c seed rom = .ok s ∧ s.cfg = c ∧ (∀ x, s.reg x = 0x00) ∧ s.i = 0x0000 ∧ s.pc = 0x200 ∧
      s.stack = [] ∧ s.dt = 0x00 ∧ s.st = 0x00 ∧
      s.res = (match c.mode with | .base => .lo | .extended => .hi) ∧ s.fb.fits s.res ∧
      (∀ x y, s.pixel x y = false) ∧ (∀ k, s.key k = false) ∧ s.ctrl = .running ∧
      (∀ k, (h : k < 16) → s.flags[k] = 0x00) ∧ s.rng = { seed := seed, draws := 0 }

/-- R38, R39, R47: what INIT leaves in memory: the program, the font table, the large font when there is one, zero
elsewhere; and `RomTooLarge` for a program over 3584 bytes. -/
def Obligations.InitLeavesMemory : Prop :=
  ∀ (c : Config) (seed : Nat) (rom : List Byte), c.wf = true →
    (3584 < rom.length → initCore c seed rom = .error (.romTooLarge rom.length)) ∧
    (rom.length ≤ 3584 →
      ∃ s, initCore c seed rom = .ok s ∧
        (∀ k, (h : k < rom.length) → s.byteAt (0x200 + k) = rom[k]) ∧
        (∀ a, 0x200 + rom.length ≤ a → s.byteAt a = 0x00) ∧
        (∀ g, g < 16 → ∀ j, j < 5 →
          s.byteAt (c.fontBase.toNat + 5 * g + j) =
            (([[0xF0, 0x90, 0x90, 0x90, 0xF0], [0x20, 0x60, 0x20, 0x20, 0x70], [0xF0, 0x10, 0xF0, 0x80, 0xF0],
               [0xF0, 0x10, 0xF0, 0x10, 0xF0], [0x90, 0x90, 0xF0, 0x10, 0x10], [0xF0, 0x80, 0xF0, 0x10, 0xF0],
               [0xF0, 0x80, 0xF0, 0x90, 0xF0], [0xF0, 0x10, 0x20, 0x40, 0x40], [0xF0, 0x90, 0xF0, 0x90, 0xF0],
               [0xF0, 0x90, 0xF0, 0x10, 0xF0], [0xF0, 0x90, 0xF0, 0x90, 0x90], [0xE0, 0x90, 0xE0, 0x90, 0xE0],
               [0xF0, 0x80, 0x80, 0x80, 0xF0], [0xE0, 0x90, 0x90, 0x90, 0xE0], [0xF0, 0x80, 0xF0, 0x80, 0xF0],
               [0xF0, 0x80, 0xF0, 0x80, 0x80]] : List (List Byte)).getD g []).getD j 0) ∧
        (∀ f, c.bigFont = some f → ∀ k, k < 160 → s.byteAt (f.base.toNat + k) = f.data.getD k 0) ∧
        (∀ a, a < 0x200 → (a < c.fontBase.toNat ∨ c.fontBase.toNat + 80 ≤ a) →
          (∀ f, c.bigFont = some f → a < f.base.toNat ∨ f.base.toNat + 160 ≤ a) → s.byteAt a = 0x00))

/-- The model's own choice (log 2, log 5, log 13): `State.reset` is what INIT leaves for the model's configuration
and seed and a program of no bytes. -/
def Obligations.ResetIsInitWithoutProgram : Prop := initCore resetConfig resetSeed [] = .ok State.reset

/-- The last sentence of R141, for every allowed configuration under the policy `Fail`. -/
def Obligations.EmptyProgramFailsAtFirstStep : Prop :=
  ∀ (c : Config) (seed : Nat) (s : State), c.unknownPolicy = .fail → c.wf = true →
    initCore c seed [] = .ok s → step s = .fault (.unknownOpcode 0x0000 0x200)

/-! ## Encoding -/

/-- Words written out from the patterns of R56 decode to the instructions they stand for. -/
def Obligations.SampleWordsDecode : Prop :=
  decode .base false 0b0000000011101110 = some .ret ∧
  decode .base false 0b0011000100000101 = some (.seImm 0x1 0x05) ∧
  decode .base false 0b1000000100100110 = some (.shr 0x1 0x2) ∧
  decode .base false 0b1111001001010101 = some (.ldMemV 0x2) ∧
  decode .base false 0b1101000000010101 = some (.drw 0x0 0x1 0x5) ∧
  decode .base false 0b1110000110011110 = some (.skp 0x1) ∧
  decode .extended false 0b0000000011000011 = some (.scd 0x3) ∧
  decode .extended false 0b1101000000010000 = some (.drwLarge 0x0 0x1) ∧
  decode .extended true 0b1111000100110000 = some (.ldHF 0x1)

/-- Decoding the word of an instruction gives it back, for every instruction of the configuration and every operand:
no bit of an encoding is dropped (R53, R56). -/
def Obligations.DecodeOfEncode : Prop :=
  ∀ (m : Mode) (e : Bool) (i : Instr), i.wellFormed m e = true → decode m e (encode i) = some i

/-- A word that decodes is the word of the instruction it decodes to, and that instruction exists in the configuration:
no two words share a meaning (R56, R57). -/
def Obligations.EncodeOfDecode : Prop :=
  ∀ (m : Mode) (e : Bool) (w : Word) (i : Instr), decode m e w = some i → i.wellFormed m e = true ∧ encode i = w

/-- R60: the illegal words of every configuration. -/
def Obligations.IllegalWordsAreUnknown : Prop :=
  ∀ (m : Mode) (e : Bool) (w : Word), decode m e w = none ↔
    (opField w = 0x0 ∧ nnnField w ≠ 0x0E0 ∧ nnnField w ≠ 0x0EE ∧
      ¬ (m = .extended ∧ ((0x0C0 ≤ (nnnField w).toNat ∧ (nnnField w).toNat ≤ 0x0CF) ∨
          nnnField w = 0x0FE ∨ nnnField w = 0x0FF ∨
          (e = true ∧ 0x0FB ≤ (nnnField w).toNat ∧ (nnnField w).toNat ≤ 0x0FD)))) ∨
    ((opField w = 0x5 ∨ opField w = 0x9) ∧ nField w ≠ 0) ∨
    (opField w = 0x8 ∧ ((0x8 ≤ (nField w).toNat ∧ (nField w).toNat ≤ 0xD) ∨ nField w = 0xF)) ∨
    (opField w = 0xE ∧ nnField w ≠ 0x9E ∧ nnField w ≠ 0xA1) ∨
    (opField w = 0xF ∧
      nnField w ∉ ([0x07, 0x0A, 0x15, 0x18, 0x1E, 0x29, 0x33, 0x55, 0x65] : List Byte) ∧
      ¬ (m = .extended ∧ (nnField w = 0x75 ∨ nnField w = 0x85 ∨ (e = true ∧ nnField w = 0x30))))

/-- R58, R59: the SUPER-CHIP rows in `Base` mode, and the extra rows in every configuration. -/
def Obligations.SuperChipRowsAreGated : Prop :=
  (∀ (e : Bool) (x y n : Nibble),
    decode .base e (0x00C#12 ++ n) = none ∧
    decode .base e 0x00FB = none ∧ decode .base e 0x00FC = none ∧ decode .base e 0x00FD = none ∧
    decode .base e 0x00FE = none ∧ decode .base e 0x00FF = none ∧
    decode .base e (0xF#4 ++ x ++ 0x30#8) = none ∧ decode .base e (0xF#4 ++ x ++ 0x75#8) = none ∧
    decode .base e (0xF#4 ++ x ++ 0x85#8) = none ∧
    decode .base e (0xD#4 ++ x ++ y ++ 0x0#4) = some (.drw x y 0)) ∧
  (∀ (m : Mode) (x : Nibble),
    decode m false 0x00FB = none ∧ decode m false 0x00FC = none ∧ decode m false 0x00FD = none ∧
    decode m false (0xF#4 ++ x ++ 0x30#8) = none) ∧
  (∀ x : Nibble,
    decode .extended true 0x00FB = some .scr ∧ decode .extended true 0x00FC = some .scl ∧
    decode .extended true 0x00FD = some .exit ∧ decode .extended true (0xF#4 ++ x ++ 0x30#8) = some (.ldHF x))

/-- R55: a decoder always consumes two bytes, whatever they are and whatever follows; and the first is the high byte
(R52). -/
def Obligations.DecoderConsumesTwoBytes : Prop :=
  ∀ (m : Mode) (e : Bool) (hi lo : Byte) (rest : List Byte),
    (∀ i, decode m e (hi ++ lo) = some i → decodeBytes m e (hi :: lo :: rest) = .ok (i, rest)) ∧
    (decode m e (hi ++ lo) = none → decodeBytes m e (hi :: lo :: rest) = .error (.unknown (hi ++ lo))) ∧
    (∀ i r, decodeBytes m e (hi :: lo :: rest) = .ok (i, r) → r = rest)

/-! ## The step -/

/-- R63: when the bytes at PC decode to an instruction, a running core's STEP is that instruction's execution with PC
moved past its word. -/
def Obligations.StepRunsDecodedInstruction : Prop :=
  ∀ (s : State) (i : Instr), s.ctrl = .running → s.pc.toNat ≤ 0xFFE →
    decode s.cfg.mode s.cfg.schipExtra (s.byteAt s.pc.toNat ++ s.byteAt (s.pc.toNat + 1)) = some i →
    step s = exec i { s with pc := s.pc + 2 }

/-- R64: the fetch reads the big-endian word at PC, fails above 0xFFE, and advances PC before the dispatch. -/
def Obligations.FetchReadsWordOrFails : Prop :=
  ∀ s : State,
    (s.pc.toNat ≤ 0xFFE →
      ∃ w, s.fetch = .ok w ∧
        w.extractLsb' 8 8 = s.byteAt s.pc.toNat ∧ w.extractLsb' 0 8 = s.byteAt (s.pc.toNat + 1) ∧
        ∀ i, s.ctrl = .running → decode s.cfg.mode s.cfg.schipExtra w = some i →
          step s = exec i { s with pc := s.pc + 2 }) ∧
    (0xFFE < s.pc.toNat →
      s.fetch = .error (.outOfBoundsAccess (if 0xFFF < s.pc.toNat then s.pc.toNat else 0x1000)) ∧
      (s.ctrl = .running →
        step s = .fault (.outOfBoundsAccess (if 0xFFF < s.pc.toNat then s.pc.toNat else 0x1000))))

/-- R121: an Unknown word under either policy, in a running core and in one whose key wait the STEP resolves. -/
def Obligations.UnknownWordFailsOrIsSkipped : Prop :=
  ∀ (s u : State), s.poll = some u → s.pc.toNat ≤ 0xFFE →
    decode s.cfg.mode s.cfg.schipExtra (s.byteAt s.pc.toNat ++ s.byteAt (s.pc.toNat + 1)) = none →
    (s.cfg.unknownPolicy = .fail →
      step s = .fault (.unknownOpcode (s.byteAt s.pc.toNat ++ s.byteAt (s.pc.toNat + 1)) s.pc) ∧
      (transact .step s).2 = s) ∧
    (s.cfg.unknownPolicy = .skip →
      step s = .next { u with pc := u.pc + 2 } ∧
      (s.ctrl = .running → u = s) ∧
      (∀ x, s.ctrl = .waitingForKey x → u.ctrl = .running ∧ u.pc = s.pc ∧ Frame [.ctrl] (fun r => r = x) s u))

/-- R128: the key-wait poll: with no key pressed the STEP succeeds and changes nothing; otherwise VX takes the
lowest-numbered pressed key and the same STEP goes on as a running core's. -/
def Obligations.KeyWaitPoll : Prop :=
  ∀ (s : State) (x : Nibble), s.ctrl = .waitingForKey x →
    ((∀ k, s.key k = false) → step s = .next s) ∧
    (∀ k : Nibble, s.key k = true → (∀ j : Nibble, j.toNat < k.toNat → s.key j = false) →
      step s = step { s with v := s.v.set x.toNat (BitVec.ofNat 8 k.toNat) x.isLt, ctrl := .running })

/-- R119, R123: a STEP is never refused, and the errors it can end with, each with the condition it is raised under;
`RomTooLarge` and `InvalidRegister` are not among them. -/
def Obligations.StepErrorsHaveTheirCause : Prop :=
  ∀ s : State, (∀ r, step s ≠ .refused r) ∧
    ∀ e, step s = .fault e →
      (e = .unknownOpcode (s.wordAt s.pc.toNat) s.pc ∧ s.pc.toNat ≤ 0xFFE ∧ s.cfg.unknownPolicy = .fail ∧
        decode s.cfg.mode s.cfg.schipExtra (s.wordAt s.pc.toNat) = none) ∨
      (e = .stackOverflow s.pc ∧ s.stack.length = 16 ∧
        ∃ nnn, decode s.cfg.mode s.cfg.schipExtra (s.wordAt s.pc.toNat) = some (.call nnn)) ∨
      (e = .stackUnderflow s.pc ∧ s.stack = [] ∧
        decode s.cfg.mode s.cfg.schipExtra (s.wordAt s.pc.toNat) = some .ret) ∨
      (e = .outOfBoundsAccess (max s.pc.toNat 0x1000) ∧ 0xFFE < s.pc.toNat) ∨
      (e = .outOfBoundsAccess (max s.i.toNat 0x1000) ∧ s.pc.toNat ≤ 0xFFE ∧
        ∃ i, decode s.cfg.mode s.cfg.schipExtra (s.wordAt s.pc.toNat) = some i ∧
          ((∃ x y n, i = .drw x y n ∧ n ≠ 0 ∧ 0x1000 < s.i.toNat + n.toNat) ∨
           (∃ x y, i = .drwLarge x y ∧ 0x1000 < s.i.toNat + 32) ∨
           (∃ x, i = .ldB x ∧ 0x1000 < s.i.toNat + 3) ∨
           (∃ x, (i = .ldMemV x ∨ i = .ldVMem x) ∧ 0xFFF < s.i.toNat + x.toNat)))

/-- R120: a STEP transaction that fails leaves the whole state as it was; and so the next one fails in the same way
(the case of R122 in which nothing comes between). -/
def Obligations.FailedStepKeepsState : Prop :=
  ∀ (s t : State) (e : Fault), transact .step s = (.err e, t) → t = s ∧ transact .step t = (.err e, s)

/-! ## Invariants and whole-machine rules -/

/-- Every step keeps the invariant: memory in canonical form, depth at most 16, PC at most 0x10FE and every return
address at most 0x1000, the grid that of the resolution, `Lo` in `Base` mode, `Halted` only with `SCHIP_EXTRA`. -/
def Obligations.StepPreservesInvariant : Prop := ∀ s t : State, s.Inv → step s = .next t → t.Inv

/-- Every transaction keeps it, TICK and the keys and a failed STEP included. -/
def Obligations.TransactionsPreserveInvariant : Prop := ∀ (a : Transaction) (s : State), s.Inv → (transact a s).2.Inv

/-- It holds at reset. -/
def Obligations.ResetMeetsInvariant : Prop := State.reset.Inv

/-- Every state a run of transactions leads to from INIT, with any allowed configuration, seed and program, meets it
(R22, R24, R28, R29). -/
def Obligations.ReachableStatesMeetInvariant : Prop := ∀ s : State, Reachable s → s.Inv

/-- R2: the mode, and with it the whole configuration, does not change while the core exists. -/
def Obligations.ConfigurationNeverChanges : Prop :=
  ∀ (a : Transaction) (s : State), (transact a s).2.cfg = s.cfg

/-- R127: the transitions of the control state. -/
def Obligations.ControlStateTransitions : Prop :=
  ∀ s : State,
    (∀ t, step s = .next t →
      (s.ctrl = .running → ∀ i, decode s.cfg.mode s.cfg.schipExtra (s.wordAt s.pc.toNat) = some i →
        ((∃ x, i = .ldVK x ∧ t.ctrl = .waitingForKey x) ∨ (i = .exit ∧ t.ctrl = .halted) ∨
          ((∀ x, i ≠ .ldVK x) ∧ i ≠ .exit ∧ t.ctrl = .running))) ∧
      (s.ctrl = .running → decode s.cfg.mode s.cfg.schipExtra (s.wordAt s.pc.toNat) = none → t.ctrl = .running) ∧
      (∀ x, s.ctrl = .waitingForKey x → (∀ k, s.key k = false) → t = s) ∧
      (∀ x, s.ctrl = .waitingForKey x → ∀ k : Nibble, s.key k = true →
        (∀ j : Nibble, j.toNat < k.toNat → s.key j = false) →
        step { s with v := s.v.set x.toNat (BitVec.ofNat 8 k.toNat) x.isLt, ctrl := .running } = .next t) ∧
      (s.ctrl = .halted → t = s)) ∧
    ∀ e t, transact .step s = (.err e, t) → t.ctrl = s.ctrl

/-- Which instructions can write which part of the state, over all 44 instructions (10_state.md: R16, R18, R20, R21, R24,
R27, R28, R30 to R34; 20_memory.md R36): every part not listed with an instruction is as it was. Of the V registers, an
instruction writes its destination VX, or V0 to VX, and VF besides only where R18 says that it sets the flag. -/
def Obligations.OnlyTheNamedInstructionsWrite : Prop :=
  ∀ (i : Instr) (s t : State), exec i s = .next t →
    t.cfg = s.cfg ∧ t.keys = s.keys ∧
    (∀ r : Nibble, t.reg r = s.reg r ∨
      (∃ nn, i = .ldImm r nn ∨ i = .addImm r nn ∨ i = .rnd r nn) ∨ i = .ldVDt r ∨
      (∃ y, i = .ldReg r y ∨ i = .or r y ∨ i = .and r y ∨ i = .xor r y ∨ i = .add r y ∨ i = .sub r y ∨ i = .shr r y ∨
        i = .subn r y ∨ i = .shl r y) ∨
      (∃ x, (i = .ldVMem x ∨ i = .ldVR x) ∧ r.toNat ≤ x.toNat) ∨
      (r = 0xF ∧ ((∃ x y, i = .add x y ∨ i = .sub x y ∨ i = .shr x y ∨ i = .subn x y ∨ i = .shl x y ∨ i = .drwLarge x y) ∨
        (∃ x y n, i = .drw x y n) ∨
        (s.cfg.quirks.logicResetsVf = true ∧ ∃ x y, i = .or x y ∨ i = .and x y ∨ i = .xor x y)))) ∧
    (t.i = s.i ∨ (∃ n, i = .ldI n) ∨ (∃ x, i = .addI x ∨ i = .ldF x ∨ i = .ldHF x) ∨
      ((∃ x, i = .ldMemV x ∨ i = .ldVMem x) ∧ s.cfg.quirks.loadStoreIncrementsI = true)) ∧
    (t.pc = s.pc ∨ i = .ret ∨ (∃ n, i = .jp n ∨ i = .call n ∨ i = .jpOff n) ∨
      (∃ x nn, i = .seImm x nn ∨ i = .sneImm x nn) ∨ (∃ x y, i = .seReg x y ∨ i = .sneReg x y) ∨
      (∃ x, i = .skp x ∨ i = .sknp x)) ∧
    (t.stack = s.stack ∨ i = .ret ∨ ∃ n, i = .call n) ∧
    (t.dt = s.dt ∨ ∃ x, i = .ldDtV x) ∧ (t.st = s.st ∨ ∃ x, i = .ldStV x) ∧
    (t.res = s.res ∨ i = .low ∨ i = .high) ∧
    (t.fb = s.fb ∨ i = .cls ∨ (∃ x y n, i = .drw x y n) ∨ (∃ x y, i = .drwLarge x y) ∨ (∃ n, i = .scd n) ∨
      i = .low ∨ i = .high ∨ i = .scr ∨ i = .scl) ∧
    (t.ctrl = s.ctrl ∨ (∃ x, i = .ldVK x) ∨ i = .exit) ∧
    (t.flags = s.flags ∨ ∃ x, i = .ldRV x) ∧
    (t.rng = s.rng ∨ ∃ x nn, i = .rnd x nn) ∧
    (t.mem = s.mem ∨ ∃ x, i = .ldB x ∨ i = .ldMemV x)

/-! ## Control flow -/

/-- R67. -/
def Obligations.ReturnTakesTopOfStack : Prop :=
  (∀ m e, decode m e 0x00EE = some .ret) ∧
  ∀ s : State,
    (∀ l a, s.stack = l ++ [a] →
      ∃ t, exec .ret s = .next t ∧ t.pc = a ∧ t.stack = l ∧ Frame [.pc, .stack] (fun _ => False) s t) ∧
    (s.stack = [] → exec .ret s = .fault (.stackUnderflow (s.pc - 2)))

/-- R68. -/
def Obligations.JumpSetsPc : Prop :=
  ∀ nnn : Addr, (∀ m e, decode m e (0x1#4 ++ nnn) = some (.jp nnn)) ∧
    ∀ s : State, ∃ t, exec (.jp nnn) s = .next t ∧ t.pc.toNat = nnn.toNat ∧ Frame [.pc] (fun _ => False) s t

/-- R69. -/
def Obligations.CallPushesReturnAddress : Prop :=
  ∀ nnn : Addr, (∀ m e, decode m e (0x2#4 ++ nnn) = some (.call nnn)) ∧
    ∀ s : State,
      (s.stack.length < 16 →
        ∃ t, exec (.call nnn) s = .next t ∧ t.pc.toNat = nnn.toNat ∧ t.stack = s.stack ++ [s.pc] ∧
          Frame [.pc, .stack] (fun _ => False) s t) ∧
      (s.stack.length = 16 → exec (.call nnn) s = .fault (.stackOverflow (s.pc - 2)))

/-- R70: the register is V0, or VX with X = NNN[11:8] under `jump_uses_vx`; the sum is exact. -/
def Obligations.JumpWithOffsetIsExact : Prop :=
  ∀ nnn : Addr, (∀ m e, decode m e (0xB#4 ++ nnn) = some (.jpOff nnn)) ∧
    ∀ s : State,
      (s.cfg.quirks.jumpUsesVx = false →
        ∃ t, exec (.jpOff nnn) s = .next t ∧ t.pc.toNat = nnn.toNat + (s.reg 0x0).toNat ∧
          Frame [.pc] (fun _ => False) s t) ∧
      (s.cfg.quirks.jumpUsesVx = true →
        ∃ t, exec (.jpOff nnn) s = .next t ∧
          t.pc.toNat = nnn.toNat + (s.reg (nnn.extractLsb' 8 4)).toNat ∧ Frame [.pc] (fun _ => False) s t)

/-- R71, R72. -/
def Obligations.ImmediateSkips : Prop :=
  ∀ (x : Nibble) (nn : Byte),
    (∀ m e, decode m e (0x3#4 ++ x ++ nn) = some (.seImm x nn) ∧
      decode m e (0x4#4 ++ x ++ nn) = some (.sneImm x nn)) ∧
    ∀ s : State,
      (∃ t, exec (.seImm x nn) s = .next t ∧ t.pc = (if s.reg x = nn then s.pc + 2 else s.pc) ∧
        Frame [.pc] (fun _ => False) s t) ∧
      (∃ t, exec (.sneImm x nn) s = .next t ∧ t.pc = (if s.reg x = nn then s.pc else s.pc + 2) ∧
        Frame [.pc] (fun _ => False) s t)

/-- R73, R74. -/
def Obligations.RegisterSkips : Prop :=
  ∀ x y : Nibble,
    (∀ m e, decode m e (0x5#4 ++ x ++ y ++ 0x0#4) = some (.seReg x y) ∧
      decode m e (0x9#4 ++ x ++ y ++ 0x0#4) = some (.sneReg x y) ∧
      ∀ n : Nibble, n ≠ 0 →
        decode m e (0x5#4 ++ x ++ y ++ n) = none ∧ decode m e (0x9#4 ++ x ++ y ++ n) = none) ∧
    ∀ s : State,
      (∃ t, exec (.seReg x y) s = .next t ∧ t.pc = (if s.reg x = s.reg y then s.pc + 2 else s.pc) ∧
        Frame [.pc] (fun _ => False) s t) ∧
      (∃ t, exec (.sneReg x y) s = .next t ∧ t.pc = (if s.reg x = s.reg y then s.pc else s.pc + 2) ∧
        Frame [.pc] (fun _ => False) s t)

/-- R104, R105, R106: the key is the low nibble of VX. -/
def Obligations.KeySkips : Prop :=
  ∀ x : Nibble,
    (∀ m e, decode m e (0xE#4 ++ x ++ 0x9E#8) = some (.skp x) ∧
      decode m e (0xE#4 ++ x ++ 0xA1#8) = some (.sknp x)) ∧
    ∀ (s : State) (k : Nibble), k.toNat = (s.reg x &&& 0x0F).toNat →
      (∃ t, exec (.skp x) s = .next t ∧ t.pc = (if s.key k = true then s.pc + 2 else s.pc) ∧
        Frame [.pc] (fun _ => False) s t) ∧
      (∃ t, exec (.sknp x) s = .next t ∧ t.pc = (if s.key k = true then s.pc else s.pc + 2) ∧
        Frame [.pc] (fun _ => False) s t)

/-- A CALL and the RET that follows it (whatever ran between them, as long as it left the stack alone): execution goes
on after the CALL with the caller's stack (R67, R69). -/
def Obligations.ReturnUndoesCall : Prop :=
  ∀ (nnn : Addr) (s t u : State), exec (.call nnn) s = .next t → u.stack = t.stack →
    ∃ w, exec .ret u = .next w ∧ w.pc = s.pc ∧ w.stack = s.stack ∧ Frame [.pc, .stack] (fun _ => False) u w

/-! ## Registers and flags -/

/-- R76, R77, R78: the result, no flag, nothing else. -/
def Obligations.LoadsAndImmediateAdd : Prop :=
  ∀ (x y : Nibble) (nn : Byte),
    (∀ m e, decode m e (0x6#4 ++ x ++ nn) = some (.ldImm x nn) ∧
      decode m e (0x7#4 ++ x ++ nn) = some (.addImm x nn) ∧
      decode m e (0x8#4 ++ x ++ y ++ 0x0#4) = some (.ldReg x y)) ∧
    ∀ s : State,
      (∃ t, exec (.ldImm x nn) s = .next t ∧ t.reg x = nn ∧ Frame [] (fun r => r = x) s t) ∧
      (∃ t, exec (.addImm x nn) s = .next t ∧ (t.reg x).toNat = ((s.reg x).toNat + nn.toNat) % 256 ∧
        Frame [] (fun r => r = x) s t) ∧
      (∃ t, exec (.ldReg x y) s = .next t ∧ t.reg x = s.reg y ∧ Frame [] (fun r => r = x) s t)

/-- R79, R80, R81: VF ends as 0 under `logic_resets_vf`, also as destination; otherwise only VX changes. -/
def Obligations.LogicWithQuirk : Prop :=
  ∀ x y : Nibble,
    (∀ m e, decode m e (0x8#4 ++ x ++ y ++ 0x1#4) = some (.or x y) ∧
      decode m e (0x8#4 ++ x ++ y ++ 0x2#4) = some (.and x y) ∧
      decode m e (0x8#4 ++ x ++ y ++ 0x3#4) = some (.xor x y)) ∧
    ∀ (s : State) (i : Instr) (f : Bool → Bool → Bool),
      ((i = .or x y ∧ f = or) ∨ (i = .and x y ∧ f = and) ∨ (i = .xor x y ∧ f = xor)) →
      ∃ t, exec i s = .next t ∧
        (s.cfg.quirks.logicResetsVf = false →
          (∀ k, k < 8 → (t.reg x).getLsbD k = f ((s.reg x).getLsbD k) ((s.reg y).getLsbD k)) ∧
          Frame [] (fun r => r = x) s t) ∧
        (s.cfg.quirks.logicResetsVf = true →
          (x ≠ 0xF → ∀ k, k < 8 → (t.reg x).getLsbD k = f ((s.reg x).getLsbD k) ((s.reg y).getLsbD k)) ∧
          t.reg 0xF = 0 ∧ Frame [] (fun r => r = x ∨ r = 0xF) s t)

/-- R82, R83, R84: the result mod 256 and the flag, computed from the old values; VF ends as the flag also when it is
the destination. -/
def Obligations.AddAndSubtractWithFlag : Prop :=
  ∀ x y : Nibble,
    (∀ m e, decode m e (0x8#4 ++ x ++ y ++ 0x4#4) = some (.add x y) ∧
      decode m e (0x8#4 ++ x ++ y ++ 0x5#4) = some (.sub x y) ∧
      decode m e (0x8#4 ++ x ++ y ++ 0x7#4) = some (.subn x y)) ∧
    ∀ (s : State) (a b : Nat), a = (s.reg x).toNat → b = (s.reg y).toNat →
      (∃ t, exec (.add x y) s = .next t ∧ (x ≠ 0xF → (t.reg x).toNat = (a + b) % 256) ∧
        t.reg 0xF = (if a + b > 0xFF then 1 else 0) ∧ Frame [] (fun r => r = x ∨ r = 0xF) s t) ∧
      (∃ t, exec (.sub x y) s = .next t ∧ (x ≠ 0xF → (t.reg x).toNat = (256 + a - b) % 256) ∧
        t.reg 0xF = (if a ≥ b then 1 else 0) ∧ Frame [] (fun r => r = x ∨ r = 0xF) s t) ∧
      (∃ t, exec (.subn x y) s = .next t ∧ (x ≠ 0xF → (t.reg x).toNat = (256 + b - a) % 256) ∧
        t.reg 0xF = (if b ≥ a then 1 else 0) ∧ Frame [] (fun r => r = x ∨ r = 0xF) s t)

/-- R85, R86: the source is VY under `shift_uses_vy`, else VX; the flag is the bit shifted out. -/
def Obligations.ShiftsWithQuirk : Prop :=
  ∀ x y : Nibble,
    (∀ m e, decode m e (0x8#4 ++ x ++ y ++ 0x6#4) = some (.shr x y) ∧
      decode m e (0x8#4 ++ x ++ y ++ 0xE#4) = some (.shl x y)) ∧
    ∀ (s : State) (src : Nat), src = (if s.cfg.quirks.shiftUsesVy = true then s.reg y else s.reg x).toNat →
      (∃ t, exec (.shr x y) s = .next t ∧ (x ≠ 0xF → (t.reg x).toNat = src / 2) ∧
        (t.reg 0xF).toNat = src % 2 ∧ Frame [] (fun r => r = x ∨ r = 0xF) s t) ∧
      (∃ t, exec (.shl x y) s = .next t ∧ (x ≠ 0xF → (t.reg x).toNat = (2 * src) % 256) ∧
        (t.reg 0xF).toNat = src / 128 ∧ Frame [] (fun r => r = x ∨ r = 0xF) s t)

/-- R87, with the model's own form of the random source R33 leaves open (log 4): the byte drawn is the free value
`Config.rngByte` of the seed and the count of bytes drawn, and the advance is that count plus one. Whatever the byte is, the
result is masked by NN, and the generator advances also for NN = 0. -/
def Obligations.RandomIsMaskedAndAdvances : Prop :=
  ∀ (x : Nibble) (nn : Byte), (∀ m e, decode m e (0xC#4 ++ x ++ nn) = some (.rnd x nn)) ∧
    ∀ s : State, ∃ t, exec (.rnd x nn) s = .next t ∧
      t.reg x = Config.rngByte s.rng.seed s.rng.draws &&& nn ∧
      t.rng = { seed := s.rng.seed, draws := s.rng.draws + 1 } ∧ Frame [.rng] (fun r => r = x) s t

/-! ## Index and memory -/

/-- R89, R90, R91. -/
def Obligations.IndexRegisterWrites : Prop :=
  ∀ (x : Nibble) (nnn : Addr),
    (∀ m e, decode m e (0xA#4 ++ nnn) = some (.ldI nnn) ∧ decode m e (0xF#4 ++ x ++ 0x1E#8) = some (.addI x) ∧
      decode m e (0xF#4 ++ x ++ 0x29#8) = some (.ldF x)) ∧
    ∀ s : State,
      (∃ t, exec (.ldI nnn) s = .next t ∧ t.i.toNat = nnn.toNat ∧ Frame [.index] (fun _ => False) s t) ∧
      (∃ t, exec (.addI x) s = .next t ∧ t.i.toNat = (s.i.toNat + (s.reg x).toNat) % 65536 ∧
        Frame [.index] (fun _ => False) s t) ∧
      (s.cfg.wf = true →
        ∃ t, exec (.ldF x) s = .next t ∧ t.i.toNat = s.cfg.fontBase.toNat + 5 * (s.reg x &&& 0x0F).toNat ∧
          Frame [.index] (fun _ => False) s t)

/-- R118. -/
def Obligations.LargeGlyphAddress : Prop :=
  ∀ x : Nibble, decode .extended true (0xF#4 ++ x ++ 0x30#8) = some (.ldHF x) ∧
    ∀ (s : State) (f : BigFont), s.cfg.wf = true → s.cfg.bigFont = some f →
      ∃ t, exec (.ldHF x) s = .next t ∧ t.i.toNat = f.base.toNat + 10 * (s.reg x &&& 0x0F).toNat ∧
        Frame [.index] (fun _ => False) s t

/-- R40, R41: an access reads or writes every byte or fails with the first address above 0xFFF, and a failed one moves
nothing; a write changes the bytes it names only and keeps the canonical form. -/
def Obligations.MemoryAccessesAreChecked : Prop :=
  ∀ (s : State) (a n : Nat), n ≠ 0 →
    (a + n ≤ 0x1000 → ∃ bs, s.memRead a n = .ok bs ∧ bs.length = n ∧ ∀ k, k < n → bs[k]? = some (s.byteAt (a + k))) ∧
    (0x1000 < a + n → s.memRead a n = .error (.outOfBoundsAccess (max a 0x1000))) ∧
    ∀ bs : List Byte, bs.length = n →
      (s.MemWf → a + n ≤ 0x1000 →
        ∃ t, s.memWrite a bs = .ok t ∧ t.MemWf ∧ (∀ k, (h : k < bs.length) → t.byteAt (a + k) = bs[k]) ∧
          MemSameOutside a n s t ∧ Frame [.mem] (fun _ => False) s t) ∧
      (0x1000 < a + n → s.memWrite a bs = .error (.outOfBoundsAccess (max a 0x1000)))

/-- R92. -/
def Obligations.DecimalDigitsAreStored : Prop :=
  ∀ x : Nibble, (∀ m e, decode m e (0xF#4 ++ x ++ 0x33#8) = some (.ldB x)) ∧
    ∀ s : State,
      (s.MemWf → s.i.toNat + 2 ≤ 0xFFF →
        ∃ t, exec (.ldB x) s = .next t ∧
          (t.byteAt s.i.toNat).toNat = (s.reg x).toNat / 100 ∧
          (t.byteAt (s.i.toNat + 1)).toNat = ((s.reg x).toNat / 10) % 10 ∧
          (t.byteAt (s.i.toNat + 2)).toNat = (s.reg x).toNat % 10 ∧
          MemSameOutside s.i.toNat 3 s t ∧ Frame [.mem] (fun _ => False) s t) ∧
      (0xFFF < s.i.toNat + 2 → exec (.ldB x) s = .fault (.outOfBoundsAccess (max s.i.toNat 0x1000)))

/-- R93. -/
def Obligations.RegisterDump : Prop :=
  ∀ x : Nibble, (∀ m e, decode m e (0xF#4 ++ x ++ 0x55#8) = some (.ldMemV x)) ∧
    ∀ s : State,
      (s.MemWf → s.i.toNat + x.toNat ≤ 0xFFF →
        ∃ t, exec (.ldMemV x) s = .next t ∧
          (∀ k : Nibble, k.toNat ≤ x.toNat → t.byteAt (s.i.toNat + k.toNat) = s.reg k) ∧
          MemSameOutside s.i.toNat (x.toNat + 1) s t ∧
          t.i.toNat = (if s.cfg.quirks.loadStoreIncrementsI = true then (s.i.toNat + x.toNat + 1) % 65536
            else s.i.toNat) ∧
          Frame [.mem, .index] (fun _ => False) s t) ∧
      (0xFFF < s.i.toNat + x.toNat → exec (.ldMemV x) s = .fault (.outOfBoundsAccess (max s.i.toNat 0x1000)))

/-- R94. -/
def Obligations.RegisterLoad : Prop :=
  ∀ x : Nibble, (∀ m e, decode m e (0xF#4 ++ x ++ 0x65#8) = some (.ldVMem x)) ∧
    ∀ s : State,
      (s.i.toNat + x.toNat ≤ 0xFFF →
        ∃ t, exec (.ldVMem x) s = .next t ∧
          (∀ k : Nibble, k.toNat ≤ x.toNat → t.reg k = s.byteAt (s.i.toNat + k.toNat)) ∧
          t.i.toNat = (if s.cfg.quirks.loadStoreIncrementsI = true then (s.i.toNat + x.toNat + 1) % 65536
            else s.i.toNat) ∧
          Frame [.index] (fun r => r.toNat ≤ x.toNat) s t) ∧
      (0xFFF < s.i.toNat + x.toNat → exec (.ldVMem x) s = .fault (.outOfBoundsAccess (max s.i.toNat 0x1000)))

/-- A dump and a load from the same place (whatever the registers held in between) give back the dumped registers
(R93, R94). -/
def Obligations.LoadRestoresDump : Prop :=
  ∀ (x : Nibble) (s t u : State), s.MemWf → exec (.ldMemV x) s = .next t →
    u.cfg = t.cfg → u.mem = t.mem → u.i = s.i →
    ∃ w, exec (.ldVMem x) u = .next w ∧ ∀ k : Nibble, k.toNat ≤ x.toNat → w.reg k = s.reg k

/-- R50: what FX33 or FX55 has written is what every later fetch of those bytes reads, for as long as nothing else is
written. -/
def Obligations.StoredBytesAreFetched : Prop :=
  ∀ (i : Instr) (s t u : State) (bs : List Byte), s.MemWf →
    ((∃ x, i = .ldMemV x ∧ bs = s.regsUpTo x) ∨ (∃ x, i = .ldB x ∧ bs = bcdDigits (s.reg x))) →
    exec i s = .next t → u.cfg = t.cfg → u.mem = t.mem → u.pc.toNat ≤ 0xFFE →
    ∃ w, u.fetch = .ok w ∧ ∀ k, (h : k < bs.length) →
      (u.pc.toNat = s.i.toNat + k → w.extractLsb' 8 8 = bs[k]) ∧
      (u.pc.toNat + 1 = s.i.toNat + k → w.extractLsb' 0 8 = bs[k])

/-! ## Display -/

/-- R96, R99. -/
def Obligations.ClearTurnsEveryPixelOff : Prop :=
  (∀ m e, decode m e 0x00E0 = some .cls) ∧
  ∀ s : State, ∃ t, exec .cls s = .next t ∧ (∀ x y, t.pixel x y = false) ∧ t.res = s.res ∧ t.fb.fits t.res ∧
    Frame [.display] (fun _ => False) s t

/-- R100. -/
def Obligations.DrawTogglesSprite : Prop :=
  ∀ x y n : Nibble,
    (∀ m e, ¬ (m = .extended ∧ n = 0) → decode m e (0xD#4 ++ x ++ y ++ n) = some (.drw x y n)) ∧
    ∀ s : State,
      (s.fb.fits s.res → (n = 0 ∨ s.i.toNat + n.toNat ≤ 0x1000) →
        ∃ t, exec (.drw x y n) s = .next t ∧
          Drawn s t (s.reg x).toNat (s.reg y).toNat n.toNat 8
            (fun r c => (s.byteAt (s.i.toNat + r)).getLsbD (7 - c)) ∧
          t.res = s.res ∧ t.fb.fits t.res ∧ Frame [.display] (fun r => r = 0xF) s t) ∧
      (n ≠ 0 → 0x1000 < s.i.toNat + n.toNat →
        exec (.drw x y n) s = .fault (.outOfBoundsAccess (max s.i.toNat 0x1000)))

/-- R112. -/
def Obligations.LargeDrawTogglesSprite : Prop :=
  ∀ x y : Nibble,
    (∀ e, decode .extended e (0xD#4 ++ x ++ y ++ 0x0#4) = some (.drwLarge x y)) ∧
    ∀ s : State,
      (s.fb.fits s.res → s.i.toNat + 31 ≤ 0xFFF →
        ∃ t, exec (.drwLarge x y) s = .next t ∧
          Drawn s t (s.reg x).toNat (s.reg y).toNat 16 16
            (fun r c => if c < 8 then (s.byteAt (s.i.toNat + 2 * r)).getLsbD (7 - c)
              else (s.byteAt (s.i.toNat + 2 * r + 1)).getLsbD (15 - c)) ∧
          t.res = s.res ∧ t.fb.fits t.res ∧ Frame [.display] (fun r => r = 0xF) s t) ∧
      (0xFFF < s.i.toNat + 31 → exec (.drwLarge x y) s = .fault (.outOfBoundsAccess (max s.i.toNat 0x1000)))

/-- R98, for both draws: a sprite drawn twice at the same place leaves every pixel as it was; a sprite without a set bit
changes nothing and makes no collision; and on a clear framebuffer the first draw makes no collision and the second makes
one when the sprite has a set bit. -/
def Obligations.DrawingTwiceRestores : Prop :=
  ∀ (i : Instr) (x y n : Nibble) (len : Nat) (s : State),
    ((i = .drw x y n ∧ len = n.toNat) ∨ (i = .drwLarge x y ∧ len = 32)) →
    x ≠ 0xF → y ≠ 0xF → s.fb.fits s.res → (len = 0 ∨ s.i.toNat + len ≤ 0x1000) →
    ∃ t u, exec i s = .next t ∧ exec i t = .next u ∧
      (∀ px py, u.pixel px py = s.pixel px py) ∧
      ((∀ r, r < len → s.byteAt (s.i.toNat + r) = 0) → t.fb = s.fb ∧ t.reg 0xF = 0 ∧ u.reg 0xF = 0) ∧
      ((∀ px py, s.pixel px py = false) →
        t.reg 0xF = 0 ∧ ((∃ r, r < len ∧ s.byteAt (s.i.toNat + r) ≠ 0) → u.reg 0xF = 1))

/-- R111, R115, R116: the scrolls move the pixels of the current grid, fill with off and lose what leaves it. -/
def Obligations.ScrollsMovePixels : Prop :=
  (∀ (e : Bool) (n : Nibble), decode .extended e (0x00C#12 ++ n) = some (.scd n)) ∧
  decode .extended true 0x00FB = some .scr ∧ decode .extended true 0x00FC = some .scl ∧
  ∀ s : State,
    (∀ n : Nibble, ∃ t, exec (.scd n) s = .next t ∧ t.res = s.res ∧ t.fb.fits t.res ∧
      (∀ x y, x < s.res.width → y < s.res.height →
        t.pixel x y = (if y ≥ n.toNat then s.pixel x (y - n.toNat) else false)) ∧
      Frame [.display] (fun _ => False) s t) ∧
    (∃ t, exec .scr s = .next t ∧ t.res = s.res ∧ t.fb.fits t.res ∧
      (∀ x y, x < s.res.width → y < s.res.height → t.pixel x y = (if x ≥ 4 then s.pixel (x - 4) y else false)) ∧
      Frame [.display] (fun _ => False) s t) ∧
    (∃ t, exec .scl s = .next t ∧ t.res = s.res ∧ t.fb.fits t.res ∧
      (∀ x y, x < s.res.width → y < s.res.height →
        t.pixel x y = (if x + 4 < s.res.width then s.pixel (x + 4) y else false)) ∧
      Frame [.display] (fun _ => False) s t)

/-- R108, R109, R110. -/
def Obligations.ResolutionSwitchClears : Prop :=
  (∀ e, decode .extended e 0x00FE = some .low ∧ decode .extended e 0x00FF = some .high) ∧
  ∀ s : State,
    (∃ t, exec .low s = .next t ∧ t.res = .lo ∧ t.fb.length = 32 ∧ (∀ row ∈ t.fb, row.length = 64) ∧
      (∀ x y, t.pixel x y = false) ∧ Frame [.display] (fun _ => False) s t) ∧
    (∃ t, exec .high s = .next t ∧ t.res = .hi ∧ t.fb.length = 64 ∧ (∀ row ∈ t.fb, row.length = 128) ∧
      (∀ x y, t.pixel x y = false) ∧ Frame [.display] (fun _ => False) s t)

/-! ## Timers, keys, control states and the flag store -/

/-- R101, R102, R103. -/
def Obligations.TimerInstructions : Prop :=
  ∀ x : Nibble,
    (∀ m e, decode m e (0xF#4 ++ x ++ 0x07#8) = some (.ldVDt x) ∧
      decode m e (0xF#4 ++ x ++ 0x15#8) = some (.ldDtV x) ∧ decode m e (0xF#4 ++ x ++ 0x18#8) = some (.ldStV x)) ∧
    ∀ s : State,
      (∃ t, exec (.ldVDt x) s = .next t ∧ t.reg x = s.dt ∧ Frame [] (fun r => r = x) s t) ∧
      (∃ t, exec (.ldDtV x) s = .next t ∧ t.dt = s.reg x ∧ Frame [.delay] (fun _ => False) s t) ∧
      (∃ t, exec (.ldStV x) s = .next t ∧ t.st = s.reg x ∧ Frame [.sound] (fun _ => False) s t)

/-- R107: entering the key wait; and the STEPs that follow, by the poll of R128. -/
def Obligations.KeyWaitIsEntered : Prop :=
  ∀ x : Nibble, (∀ m e, decode m e (0xF#4 ++ x ++ 0x0A#8) = some (.ldVK x)) ∧
    ∀ s : State, ∃ t, exec (.ldVK x) s = .next t ∧ t.ctrl = .waitingForKey x ∧
      Frame [.ctrl] (fun _ => False) s t ∧
      ((∀ k, s.key k = false) → step t = .next t) ∧
      (∀ k : Nibble, s.key k = true → (∀ j : Nibble, j.toNat < k.toNat → s.key j = false) →
        step t = step { s with v := s.v.set x.toNat (BitVec.ofNat 8 k.toNat) x.isLt, ctrl := .running })

/-- R117: EXIT, and that a halted core stays as it is whatever steps follow. -/
def Obligations.ExitHaltsForEver : Prop :=
  decode .extended true 0x00FD = some .exit ∧
  ∀ s : State, ∃ t, exec .exit s = .next t ∧ t.ctrl = .halted ∧ Frame [.ctrl] (fun _ => False) s t ∧
    (∀ n, Host.Core.run Sys2Proof.core n t = .next t) ∧
    ∀ as : List Transaction, (transactAll as t).ctrl = .halted ∧ (transactAll as t).pc = s.pc

/-- R113, R114. -/
def Obligations.FlagStoreSavesAndLoads : Prop :=
  ∀ x : Nibble,
    (∀ e, decode .extended e (0xF#4 ++ x ++ 0x75#8) = some (.ldRV x) ∧
      decode .extended e (0xF#4 ++ x ++ 0x85#8) = some (.ldVR x)) ∧
    ∀ s : State,
      (∃ t, exec (.ldRV x) s = .next t ∧
        (∀ k : Nibble, t.flags[k.toNat]'k.isLt = if k.toNat ≤ x.toNat then s.reg k else s.flags[k.toNat]'k.isLt) ∧
        Frame [.flags] (fun _ => False) s t) ∧
      (∃ t, exec (.ldVR x) s = .next t ∧
        (∀ k : Nibble, k.toNat ≤ x.toNat → t.reg k = s.flags[k.toNat]'k.isLt) ∧
        Frame [] (fun r => r.toNat ≤ x.toNat) s t)

/-! ## The host's transactions -/

/-- R129: TICK, in every control state. -/
def Obligations.TickDecrementsTimers : Prop :=
  ∀ s : State, ∃ t, transact .tick s = (.done, t) ∧ t.dt.toNat = s.dt.toNat - 1 ∧ t.st.toNat = s.st.toNat - 1 ∧
    Frame [.delay, .sound] (fun _ => False) s t

/-- R133: the key transactions set the level of the one key named and refuse a number above 15. -/
def Obligations.KeyTransactionsSetLevel : Prop :=
  ∀ (s : State) (k : Nat),
    (∀ h : k < 16,
      (∃ t, transact (.keyDown k) s = (.done, t) ∧ t.keys = s.keys.set k true h ∧ Frame [.keys] (fun _ => False) s t) ∧
      (∃ t, transact (.keyUp k) s = (.done, t) ∧ t.keys = s.keys.set k false h ∧ Frame [.keys] (fun _ => False) s t) ∧
      (s.keys[k] = true → (transact (.keyDown k) s).2 = s) ∧
      (s.keys[k] = false → (transact (.keyUp k) s).2 = s ∧ transactAll [.keyDown k, .keyUp k] s = s)) ∧
    (16 ≤ k → transact (.keyDown k) s = (.refused (.keyOutOfRange k), s) ∧
      transact (.keyUp k) s = (.refused (.keyOutOfRange k), s))

/-- R131, R134: the read ports change nothing, and return the sound bit and W, H and every pixel of the current grid. -/
def Obligations.ReadPortsObserve : Prop :=
  ∀ s : State,
    (∃ b, transact .soundRead s = (.sound b, s) ∧ (b = true ↔ s.st ≠ 0)) ∧
    ∃ p, transact .framebufferRead s = (.snapshot p, s) ∧
      (p.width, p.height) = (match s.res with | .lo => (64, 32) | .hi => (128, 64)) ∧
      p.pixels.length = p.height ∧ (∀ row ∈ p.pixels, row.length = p.width) ∧
      ∀ x y, x < p.width → y < p.height → p.pixels.pixel x y = s.pixel x y
end

