-- ==== Sys2Proof/Laws/Decode.lean ====
section
/-! SUPPORT. The fields of a word put together from its nibbles (30_encoding.md R53), in the three shapes the opcode map
uses: op X Y N, op X NN and op NNN; and a word as its fields put together. -/

namespace Sys2Proof

section
variable (a b c d : Nibble) (nn : Byte) (nnn : Addr)

/-! ## The bits of the three shapes -/

theorem bit_nibbles (k : Nat) : BitVec.getLsbD (w := 16) (a ++ b ++ c ++ d) k =
    if k < 4 then d.getLsbD k else if k < 8 then c.getLsbD (k - 4)
    else if k < 12 then b.getLsbD (k - 8) else a.getLsbD (k - 12) := by
  have h : BitVec.getLsbD (w := 16) (a ++ b ++ c ++ d) k = BitVec.getLsbD (w := 4 + 4 + 4 + 4) (a ++ b ++ c ++ d) k :=
    rfl
  rw [h, BitVec.getLsbD_append, BitVec.getLsbD_append, BitVec.getLsbD_append]
  simp only [Nat.sub_sub, Nat.reduceAdd]
  grind

theorem bit_byte (k : Nat) : BitVec.getLsbD (w := 16) (a ++ b ++ nn) k =
    if k < 8 then nn.getLsbD k else if k < 12 then b.getLsbD (k - 8) else a.getLsbD (k - 12) := by
  have h : BitVec.getLsbD (w := 16) (a ++ b ++ nn) k = BitVec.getLsbD (w := 4 + 4 + 8) (a ++ b ++ nn) k := rfl
  rw [h, BitVec.getLsbD_append, BitVec.getLsbD_append]
  simp only [Nat.sub_sub, Nat.reduceAdd]
  grind

theorem bit_addr (k : Nat) : BitVec.getLsbD (w := 16) (a ++ nnn) k =
    if k < 12 then nnn.getLsbD k else a.getLsbD (k - 12) := by
  have h : BitVec.getLsbD (w := 16) (a ++ nnn) k = BitVec.getLsbD (w := 4 + 12) (a ++ nnn) k := rfl
  rw [h, BitVec.getLsbD_append]

theorem bit_scroll (k : Nat) : BitVec.getLsbD (w := 16) (0x00C#12 ++ d) k =
    if k < 4 then d.getLsbD k else (0x00C#12).getLsbD (k - 4) := by
  have h : BitVec.getLsbD (w := 16) (0x00C#12 ++ d) k = BitVec.getLsbD (w := 12 + 4) (0x00C#12 ++ d) k := rfl
  rw [h, BitVec.getLsbD_append]

/-- A field whose bits are those of `v` is `v`. -/
theorem extract_eq {n m : Nat} (w : BitVec n) (v : BitVec m) (k : Nat)
    (h : ∀ i, i < m → w.getLsbD (k + i) = v.getLsbD i) : w.extractLsb' k m = v := by
  apply BitVec.eq_of_getLsbD_eq
  intro i hi
  simp only [BitVec.getLsbD_extractLsb', hi, h i hi, decide_true, Bool.true_and]

/-! ## The fields of the three shapes -/

@[simp] theorem opField_nibbles : opField (a ++ b ++ c ++ d) = a :=
  extract_eq _ _ _ fun i hi => by rw [bit_nibbles]; grind

@[simp] theorem xField_nibbles : xField (a ++ b ++ c ++ d) = b :=
  extract_eq _ _ _ fun i hi => by rw [bit_nibbles]; grind

@[simp] theorem yField_nibbles : yField (a ++ b ++ c ++ d) = c :=
  extract_eq _ _ _ fun i hi => by rw [bit_nibbles]; grind

@[simp] theorem nField_nibbles : nField (a ++ b ++ c ++ d) = d :=
  extract_eq _ _ _ fun i hi => by rw [bit_nibbles]; grind

@[simp] theorem opField_byte : opField (a ++ b ++ nn) = a :=
  extract_eq _ _ _ fun i hi => by rw [bit_byte]; grind

@[simp] theorem xField_byte : xField (a ++ b ++ nn) = b :=
  extract_eq _ _ _ fun i hi => by rw [bit_byte]; grind

@[simp] theorem nnField_byte : nnField (a ++ b ++ nn) = nn :=
  extract_eq _ _ _ fun i hi => by rw [bit_byte]; grind

@[simp] theorem opField_addr : opField (a ++ nnn) = a :=
  extract_eq _ _ _ fun i hi => by rw [bit_addr]; grind

@[simp] theorem nnnField_addr : nnnField (a ++ nnn) = nnn :=
  extract_eq _ _ _ fun i hi => by rw [bit_addr]; grind

@[simp] theorem opField_scroll : opField (0x00C#12 ++ d) = 0x0 :=
  extract_eq _ _ _ fun i hi => by rw [bit_scroll]; interval_cases i <;> simp

@[simp] theorem xField_scroll : xField (0x00C#12 ++ d) = 0x0 :=
  extract_eq _ _ _ fun i hi => by rw [bit_scroll]; interval_cases i <;> simp

@[simp] theorem yField_scroll : yField (0x00C#12 ++ d) = 0xC :=
  extract_eq _ _ _ fun i hi => by rw [bit_scroll]; interval_cases i <;> simp

@[simp] theorem nField_scroll : nField (0x00C#12 ++ d) = d :=
  extract_eq _ _ _ fun i hi => by rw [bit_scroll]; grind

end

/-! ## A word is its fields put together -/

section
variable (w : Word)

theorem word_eq_nibbles : w = opField w ++ xField w ++ yField w ++ nField w := by
  apply BitVec.eq_of_getLsbD_eq
  intro i hi
  rw [bit_nibbles]
  simp only [opField, xField, yField, nField, BitVec.getLsbD_extractLsb']
  grind

theorem word_eq_byte : w = opField w ++ xField w ++ nnField w := by
  apply BitVec.eq_of_getLsbD_eq
  intro i hi
  rw [bit_byte]
  simp only [opField, xField, nnField, BitVec.getLsbD_extractLsb']
  grind

theorem word_eq_addr : w = opField w ++ nnnField w := by
  apply BitVec.eq_of_getLsbD_eq
  intro i hi
  rw [bit_addr]
  simp only [opField, nnnField, BitVec.getLsbD_extractLsb']
  grind

end

end Sys2Proof
end

