-- ==== Sys2Proof/Laws/State.lean ====
section
/-! SUPPORT. The small lemmas of the state: one per field per update, true by `rfl`, and what the accessors read after
an update. -/

namespace Sys2Proof.Machine

variable (s : State)

/-! ## setReg -/

@[simp] theorem setReg_cfg (x : Nibble) (b : Byte) : (s.setReg x b).cfg = s.cfg := rfl
@[simp] theorem setReg_mem (x : Nibble) (b : Byte) : (s.setReg x b).mem = s.mem := rfl
@[simp] theorem setReg_v (x : Nibble) (b : Byte) : (s.setReg x b).v = s.v.set x.toNat b x.isLt := rfl
@[simp] theorem setReg_i (x : Nibble) (b : Byte) : (s.setReg x b).i = s.i := rfl
@[simp] theorem setReg_pc (x : Nibble) (b : Byte) : (s.setReg x b).pc = s.pc := rfl
@[simp] theorem setReg_stack (x : Nibble) (b : Byte) : (s.setReg x b).stack = s.stack := rfl
@[simp] theorem setReg_dt (x : Nibble) (b : Byte) : (s.setReg x b).dt = s.dt := rfl
@[simp] theorem setReg_st (x : Nibble) (b : Byte) : (s.setReg x b).st = s.st := rfl
@[simp] theorem setReg_res (x : Nibble) (b : Byte) : (s.setReg x b).res = s.res := rfl
@[simp] theorem setReg_fb (x : Nibble) (b : Byte) : (s.setReg x b).fb = s.fb := rfl
@[simp] theorem setReg_keys (x : Nibble) (b : Byte) : (s.setReg x b).keys = s.keys := rfl
@[simp] theorem setReg_ctrl (x : Nibble) (b : Byte) : (s.setReg x b).ctrl = s.ctrl := rfl
@[simp] theorem setReg_flags (x : Nibble) (b : Byte) : (s.setReg x b).flags = s.flags := rfl
@[simp] theorem setReg_rng (x : Nibble) (b : Byte) : (s.setReg x b).rng = s.rng := rfl
@[simp] theorem setReg_byteAt (x : Nibble) (b : Byte) (p : Nat) : (s.setReg x b).byteAt p = s.byteAt p := rfl
@[simp] theorem setReg_wordAt (x : Nibble) (b : Byte) (p : Nat) : (s.setReg x b).wordAt p = s.wordAt p := rfl
@[simp] theorem setReg_pixel (x : Nibble) (b : Byte) (p q : Nat) : (s.setReg x b).pixel p q = s.pixel p q := rfl

/-! ## setV -/

@[simp] theorem setV_cfg (w : Vector Byte 16) : (s.setV w).cfg = s.cfg := rfl
@[simp] theorem setV_mem (w : Vector Byte 16) : (s.setV w).mem = s.mem := rfl
@[simp] theorem setV_v (w : Vector Byte 16) : (s.setV w).v = w := rfl
@[simp] theorem setV_i (w : Vector Byte 16) : (s.setV w).i = s.i := rfl
@[simp] theorem setV_pc (w : Vector Byte 16) : (s.setV w).pc = s.pc := rfl
@[simp] theorem setV_stack (w : Vector Byte 16) : (s.setV w).stack = s.stack := rfl
@[simp] theorem setV_dt (w : Vector Byte 16) : (s.setV w).dt = s.dt := rfl
@[simp] theorem setV_st (w : Vector Byte 16) : (s.setV w).st = s.st := rfl
@[simp] theorem setV_res (w : Vector Byte 16) : (s.setV w).res = s.res := rfl
@[simp] theorem setV_fb (w : Vector Byte 16) : (s.setV w).fb = s.fb := rfl
@[simp] theorem setV_keys (w : Vector Byte 16) : (s.setV w).keys = s.keys := rfl
@[simp] theorem setV_ctrl (w : Vector Byte 16) : (s.setV w).ctrl = s.ctrl := rfl
@[simp] theorem setV_flags (w : Vector Byte 16) : (s.setV w).flags = s.flags := rfl
@[simp] theorem setV_rng (w : Vector Byte 16) : (s.setV w).rng = s.rng := rfl
@[simp] theorem setV_byteAt (w : Vector Byte 16) (p : Nat) : (s.setV w).byteAt p = s.byteAt p := rfl
@[simp] theorem setV_wordAt (w : Vector Byte 16) (p : Nat) : (s.setV w).wordAt p = s.wordAt p := rfl
@[simp] theorem setV_pixel (w : Vector Byte 16) (p q : Nat) : (s.setV w).pixel p q = s.pixel p q := rfl

/-! ## setI -/

@[simp] theorem setI_cfg (a : Word) : (s.setI a).cfg = s.cfg := rfl
@[simp] theorem setI_mem (a : Word) : (s.setI a).mem = s.mem := rfl
@[simp] theorem setI_v (a : Word) : (s.setI a).v = s.v := rfl
@[simp] theorem setI_i (a : Word) : (s.setI a).i = a := rfl
@[simp] theorem setI_pc (a : Word) : (s.setI a).pc = s.pc := rfl
@[simp] theorem setI_stack (a : Word) : (s.setI a).stack = s.stack := rfl
@[simp] theorem setI_dt (a : Word) : (s.setI a).dt = s.dt := rfl
@[simp] theorem setI_st (a : Word) : (s.setI a).st = s.st := rfl
@[simp] theorem setI_res (a : Word) : (s.setI a).res = s.res := rfl
@[simp] theorem setI_fb (a : Word) : (s.setI a).fb = s.fb := rfl
@[simp] theorem setI_keys (a : Word) : (s.setI a).keys = s.keys := rfl
@[simp] theorem setI_ctrl (a : Word) : (s.setI a).ctrl = s.ctrl := rfl
@[simp] theorem setI_flags (a : Word) : (s.setI a).flags = s.flags := rfl
@[simp] theorem setI_rng (a : Word) : (s.setI a).rng = s.rng := rfl
@[simp] theorem setI_reg (a : Word) (y : Nibble) : (s.setI a).reg y = s.reg y := rfl
@[simp] theorem setI_byteAt (a : Word) (p : Nat) : (s.setI a).byteAt p = s.byteAt p := rfl
@[simp] theorem setI_wordAt (a : Word) (p : Nat) : (s.setI a).wordAt p = s.wordAt p := rfl
@[simp] theorem setI_pixel (a : Word) (p q : Nat) : (s.setI a).pixel p q = s.pixel p q := rfl

/-! ## setPc -/

@[simp] theorem setPc_cfg (a : Word) : (s.setPc a).cfg = s.cfg := rfl
@[simp] theorem setPc_mem (a : Word) : (s.setPc a).mem = s.mem := rfl
@[simp] theorem setPc_v (a : Word) : (s.setPc a).v = s.v := rfl
@[simp] theorem setPc_i (a : Word) : (s.setPc a).i = s.i := rfl
@[simp] theorem setPc_pc (a : Word) : (s.setPc a).pc = a := rfl
@[simp] theorem setPc_stack (a : Word) : (s.setPc a).stack = s.stack := rfl
@[simp] theorem setPc_dt (a : Word) : (s.setPc a).dt = s.dt := rfl
@[simp] theorem setPc_st (a : Word) : (s.setPc a).st = s.st := rfl
@[simp] theorem setPc_res (a : Word) : (s.setPc a).res = s.res := rfl
@[simp] theorem setPc_fb (a : Word) : (s.setPc a).fb = s.fb := rfl
@[simp] theorem setPc_keys (a : Word) : (s.setPc a).keys = s.keys := rfl
@[simp] theorem setPc_ctrl (a : Word) : (s.setPc a).ctrl = s.ctrl := rfl
@[simp] theorem setPc_flags (a : Word) : (s.setPc a).flags = s.flags := rfl
@[simp] theorem setPc_rng (a : Word) : (s.setPc a).rng = s.rng := rfl
@[simp] theorem setPc_reg (a : Word) (y : Nibble) : (s.setPc a).reg y = s.reg y := rfl
@[simp] theorem setPc_byteAt (a : Word) (p : Nat) : (s.setPc a).byteAt p = s.byteAt p := rfl
@[simp] theorem setPc_wordAt (a : Word) (p : Nat) : (s.setPc a).wordAt p = s.wordAt p := rfl
@[simp] theorem setPc_pixel (a : Word) (p q : Nat) : (s.setPc a).pixel p q = s.pixel p q := rfl

/-! ## setStack -/

@[simp] theorem setStack_cfg (l : List Word) : (s.setStack l).cfg = s.cfg := rfl
@[simp] theorem setStack_mem (l : List Word) : (s.setStack l).mem = s.mem := rfl
@[simp] theorem setStack_v (l : List Word) : (s.setStack l).v = s.v := rfl
@[simp] theorem setStack_i (l : List Word) : (s.setStack l).i = s.i := rfl
@[simp] theorem setStack_pc (l : List Word) : (s.setStack l).pc = s.pc := rfl
@[simp] theorem setStack_stack (l : List Word) : (s.setStack l).stack = l := rfl
@[simp] theorem setStack_dt (l : List Word) : (s.setStack l).dt = s.dt := rfl
@[simp] theorem setStack_st (l : List Word) : (s.setStack l).st = s.st := rfl
@[simp] theorem setStack_res (l : List Word) : (s.setStack l).res = s.res := rfl
@[simp] theorem setStack_fb (l : List Word) : (s.setStack l).fb = s.fb := rfl
@[simp] theorem setStack_keys (l : List Word) : (s.setStack l).keys = s.keys := rfl
@[simp] theorem setStack_ctrl (l : List Word) : (s.setStack l).ctrl = s.ctrl := rfl
@[simp] theorem setStack_flags (l : List Word) : (s.setStack l).flags = s.flags := rfl
@[simp] theorem setStack_rng (l : List Word) : (s.setStack l).rng = s.rng := rfl
@[simp] theorem setStack_reg (l : List Word) (y : Nibble) : (s.setStack l).reg y = s.reg y := rfl
@[simp] theorem setStack_byteAt (l : List Word) (p : Nat) : (s.setStack l).byteAt p = s.byteAt p := rfl
@[simp] theorem setStack_wordAt (l : List Word) (p : Nat) : (s.setStack l).wordAt p = s.wordAt p := rfl
@[simp] theorem setStack_pixel (l : List Word) (p q : Nat) : (s.setStack l).pixel p q = s.pixel p q := rfl

/-! ## setDt -/

@[simp] theorem setDt_cfg (b : Byte) : (s.setDt b).cfg = s.cfg := rfl
@[simp] theorem setDt_mem (b : Byte) : (s.setDt b).mem = s.mem := rfl
@[simp] theorem setDt_v (b : Byte) : (s.setDt b).v = s.v := rfl
@[simp] theorem setDt_i (b : Byte) : (s.setDt b).i = s.i := rfl
@[simp] theorem setDt_pc (b : Byte) : (s.setDt b).pc = s.pc := rfl
@[simp] theorem setDt_stack (b : Byte) : (s.setDt b).stack = s.stack := rfl
@[simp] theorem setDt_dt (b : Byte) : (s.setDt b).dt = b := rfl
@[simp] theorem setDt_st (b : Byte) : (s.setDt b).st = s.st := rfl
@[simp] theorem setDt_res (b : Byte) : (s.setDt b).res = s.res := rfl
@[simp] theorem setDt_fb (b : Byte) : (s.setDt b).fb = s.fb := rfl
@[simp] theorem setDt_keys (b : Byte) : (s.setDt b).keys = s.keys := rfl
@[simp] theorem setDt_ctrl (b : Byte) : (s.setDt b).ctrl = s.ctrl := rfl
@[simp] theorem setDt_flags (b : Byte) : (s.setDt b).flags = s.flags := rfl
@[simp] theorem setDt_rng (b : Byte) : (s.setDt b).rng = s.rng := rfl
@[simp] theorem setDt_reg (b : Byte) (y : Nibble) : (s.setDt b).reg y = s.reg y := rfl
@[simp] theorem setDt_byteAt (b : Byte) (p : Nat) : (s.setDt b).byteAt p = s.byteAt p := rfl
@[simp] theorem setDt_wordAt (b : Byte) (p : Nat) : (s.setDt b).wordAt p = s.wordAt p := rfl
@[simp] theorem setDt_pixel (b : Byte) (p q : Nat) : (s.setDt b).pixel p q = s.pixel p q := rfl

/-! ## setSt -/

@[simp] theorem setSt_cfg (b : Byte) : (s.setSt b).cfg = s.cfg := rfl
@[simp] theorem setSt_mem (b : Byte) : (s.setSt b).mem = s.mem := rfl
@[simp] theorem setSt_v (b : Byte) : (s.setSt b).v = s.v := rfl
@[simp] theorem setSt_i (b : Byte) : (s.setSt b).i = s.i := rfl
@[simp] theorem setSt_pc (b : Byte) : (s.setSt b).pc = s.pc := rfl
@[simp] theorem setSt_stack (b : Byte) : (s.setSt b).stack = s.stack := rfl
@[simp] theorem setSt_dt (b : Byte) : (s.setSt b).dt = s.dt := rfl
@[simp] theorem setSt_st (b : Byte) : (s.setSt b).st = b := rfl
@[simp] theorem setSt_res (b : Byte) : (s.setSt b).res = s.res := rfl
@[simp] theorem setSt_fb (b : Byte) : (s.setSt b).fb = s.fb := rfl
@[simp] theorem setSt_keys (b : Byte) : (s.setSt b).keys = s.keys := rfl
@[simp] theorem setSt_ctrl (b : Byte) : (s.setSt b).ctrl = s.ctrl := rfl
@[simp] theorem setSt_flags (b : Byte) : (s.setSt b).flags = s.flags := rfl
@[simp] theorem setSt_rng (b : Byte) : (s.setSt b).rng = s.rng := rfl
@[simp] theorem setSt_reg (b : Byte) (y : Nibble) : (s.setSt b).reg y = s.reg y := rfl
@[simp] theorem setSt_byteAt (b : Byte) (p : Nat) : (s.setSt b).byteAt p = s.byteAt p := rfl
@[simp] theorem setSt_wordAt (b : Byte) (p : Nat) : (s.setSt b).wordAt p = s.wordAt p := rfl
@[simp] theorem setSt_pixel (b : Byte) (p q : Nat) : (s.setSt b).pixel p q = s.pixel p q := rfl

/-! ## setDisplay -/

@[simp] theorem setDisplay_cfg (r : Resolution) (g : Grid) : (s.setDisplay r g).cfg = s.cfg := rfl
@[simp] theorem setDisplay_mem (r : Resolution) (g : Grid) : (s.setDisplay r g).mem = s.mem := rfl
@[simp] theorem setDisplay_v (r : Resolution) (g : Grid) : (s.setDisplay r g).v = s.v := rfl
@[simp] theorem setDisplay_i (r : Resolution) (g : Grid) : (s.setDisplay r g).i = s.i := rfl
@[simp] theorem setDisplay_pc (r : Resolution) (g : Grid) : (s.setDisplay r g).pc = s.pc := rfl
@[simp] theorem setDisplay_stack (r : Resolution) (g : Grid) : (s.setDisplay r g).stack = s.stack := rfl
@[simp] theorem setDisplay_dt (r : Resolution) (g : Grid) : (s.setDisplay r g).dt = s.dt := rfl
@[simp] theorem setDisplay_st (r : Resolution) (g : Grid) : (s.setDisplay r g).st = s.st := rfl
@[simp] theorem setDisplay_res (r : Resolution) (g : Grid) : (s.setDisplay r g).res = r := rfl
@[simp] theorem setDisplay_fb (r : Resolution) (g : Grid) : (s.setDisplay r g).fb = g := rfl
@[simp] theorem setDisplay_keys (r : Resolution) (g : Grid) : (s.setDisplay r g).keys = s.keys := rfl
@[simp] theorem setDisplay_ctrl (r : Resolution) (g : Grid) : (s.setDisplay r g).ctrl = s.ctrl := rfl
@[simp] theorem setDisplay_flags (r : Resolution) (g : Grid) : (s.setDisplay r g).flags = s.flags := rfl
@[simp] theorem setDisplay_rng (r : Resolution) (g : Grid) : (s.setDisplay r g).rng = s.rng := rfl
@[simp] theorem setDisplay_reg (r : Resolution) (g : Grid) (y : Nibble) : (s.setDisplay r g).reg y = s.reg y := rfl
@[simp] theorem setDisplay_byteAt (r : Resolution) (g : Grid) (p : Nat) : (s.setDisplay r g).byteAt p = s.byteAt p := rfl
@[simp] theorem setDisplay_wordAt (r : Resolution) (g : Grid) (p : Nat) : (s.setDisplay r g).wordAt p = s.wordAt p := rfl

/-! ## setKeys -/

@[simp] theorem setKeys_cfg (k : Vector Bool 16) : (s.setKeys k).cfg = s.cfg := rfl
@[simp] theorem setKeys_mem (k : Vector Bool 16) : (s.setKeys k).mem = s.mem := rfl
@[simp] theorem setKeys_v (k : Vector Bool 16) : (s.setKeys k).v = s.v := rfl
@[simp] theorem setKeys_i (k : Vector Bool 16) : (s.setKeys k).i = s.i := rfl
@[simp] theorem setKeys_pc (k : Vector Bool 16) : (s.setKeys k).pc = s.pc := rfl
@[simp] theorem setKeys_stack (k : Vector Bool 16) : (s.setKeys k).stack = s.stack := rfl
@[simp] theorem setKeys_dt (k : Vector Bool 16) : (s.setKeys k).dt = s.dt := rfl
@[simp] theorem setKeys_st (k : Vector Bool 16) : (s.setKeys k).st = s.st := rfl
@[simp] theorem setKeys_res (k : Vector Bool 16) : (s.setKeys k).res = s.res := rfl
@[simp] theorem setKeys_fb (k : Vector Bool 16) : (s.setKeys k).fb = s.fb := rfl
@[simp] theorem setKeys_keys (k : Vector Bool 16) : (s.setKeys k).keys = k := rfl
@[simp] theorem setKeys_ctrl (k : Vector Bool 16) : (s.setKeys k).ctrl = s.ctrl := rfl
@[simp] theorem setKeys_flags (k : Vector Bool 16) : (s.setKeys k).flags = s.flags := rfl
@[simp] theorem setKeys_rng (k : Vector Bool 16) : (s.setKeys k).rng = s.rng := rfl
@[simp] theorem setKeys_reg (k : Vector Bool 16) (y : Nibble) : (s.setKeys k).reg y = s.reg y := rfl
@[simp] theorem setKeys_byteAt (k : Vector Bool 16) (p : Nat) : (s.setKeys k).byteAt p = s.byteAt p := rfl
@[simp] theorem setKeys_wordAt (k : Vector Bool 16) (p : Nat) : (s.setKeys k).wordAt p = s.wordAt p := rfl
@[simp] theorem setKeys_pixel (k : Vector Bool 16) (p q : Nat) : (s.setKeys k).pixel p q = s.pixel p q := rfl

/-! ## setCtrl -/

@[simp] theorem setCtrl_cfg (c : Ctrl) : (s.setCtrl c).cfg = s.cfg := rfl
@[simp] theorem setCtrl_mem (c : Ctrl) : (s.setCtrl c).mem = s.mem := rfl
@[simp] theorem setCtrl_v (c : Ctrl) : (s.setCtrl c).v = s.v := rfl
@[simp] theorem setCtrl_i (c : Ctrl) : (s.setCtrl c).i = s.i := rfl
@[simp] theorem setCtrl_pc (c : Ctrl) : (s.setCtrl c).pc = s.pc := rfl
@[simp] theorem setCtrl_stack (c : Ctrl) : (s.setCtrl c).stack = s.stack := rfl
@[simp] theorem setCtrl_dt (c : Ctrl) : (s.setCtrl c).dt = s.dt := rfl
@[simp] theorem setCtrl_st (c : Ctrl) : (s.setCtrl c).st = s.st := rfl
@[simp] theorem setCtrl_res (c : Ctrl) : (s.setCtrl c).res = s.res := rfl
@[simp] theorem setCtrl_fb (c : Ctrl) : (s.setCtrl c).fb = s.fb := rfl
@[simp] theorem setCtrl_keys (c : Ctrl) : (s.setCtrl c).keys = s.keys := rfl
@[simp] theorem setCtrl_ctrl (c : Ctrl) : (s.setCtrl c).ctrl = c := rfl
@[simp] theorem setCtrl_flags (c : Ctrl) : (s.setCtrl c).flags = s.flags := rfl
@[simp] theorem setCtrl_rng (c : Ctrl) : (s.setCtrl c).rng = s.rng := rfl
@[simp] theorem setCtrl_reg (c : Ctrl) (y : Nibble) : (s.setCtrl c).reg y = s.reg y := rfl
@[simp] theorem setCtrl_byteAt (c : Ctrl) (p : Nat) : (s.setCtrl c).byteAt p = s.byteAt p := rfl
@[simp] theorem setCtrl_wordAt (c : Ctrl) (p : Nat) : (s.setCtrl c).wordAt p = s.wordAt p := rfl
@[simp] theorem setCtrl_pixel (c : Ctrl) (p q : Nat) : (s.setCtrl c).pixel p q = s.pixel p q := rfl

/-! ## setFlags -/

@[simp] theorem setFlags_cfg (f : Vector Byte 16) : (s.setFlags f).cfg = s.cfg := rfl
@[simp] theorem setFlags_mem (f : Vector Byte 16) : (s.setFlags f).mem = s.mem := rfl
@[simp] theorem setFlags_v (f : Vector Byte 16) : (s.setFlags f).v = s.v := rfl
@[simp] theorem setFlags_i (f : Vector Byte 16) : (s.setFlags f).i = s.i := rfl
@[simp] theorem setFlags_pc (f : Vector Byte 16) : (s.setFlags f).pc = s.pc := rfl
@[simp] theorem setFlags_stack (f : Vector Byte 16) : (s.setFlags f).stack = s.stack := rfl
@[simp] theorem setFlags_dt (f : Vector Byte 16) : (s.setFlags f).dt = s.dt := rfl
@[simp] theorem setFlags_st (f : Vector Byte 16) : (s.setFlags f).st = s.st := rfl
@[simp] theorem setFlags_res (f : Vector Byte 16) : (s.setFlags f).res = s.res := rfl
@[simp] theorem setFlags_fb (f : Vector Byte 16) : (s.setFlags f).fb = s.fb := rfl
@[simp] theorem setFlags_keys (f : Vector Byte 16) : (s.setFlags f).keys = s.keys := rfl
@[simp] theorem setFlags_ctrl (f : Vector Byte 16) : (s.setFlags f).ctrl = s.ctrl := rfl
@[simp] theorem setFlags_flags (f : Vector Byte 16) : (s.setFlags f).flags = f := rfl
@[simp] theorem setFlags_rng (f : Vector Byte 16) : (s.setFlags f).rng = s.rng := rfl
@[simp] theorem setFlags_reg (f : Vector Byte 16) (y : Nibble) : (s.setFlags f).reg y = s.reg y := rfl
@[simp] theorem setFlags_byteAt (f : Vector Byte 16) (p : Nat) : (s.setFlags f).byteAt p = s.byteAt p := rfl
@[simp] theorem setFlags_wordAt (f : Vector Byte 16) (p : Nat) : (s.setFlags f).wordAt p = s.wordAt p := rfl
@[simp] theorem setFlags_pixel (f : Vector Byte 16) (p q : Nat) : (s.setFlags f).pixel p q = s.pixel p q := rfl

/-! ## setRng -/

@[simp] theorem setRng_cfg (r : RngState) : (s.setRng r).cfg = s.cfg := rfl
@[simp] theorem setRng_mem (r : RngState) : (s.setRng r).mem = s.mem := rfl
@[simp] theorem setRng_v (r : RngState) : (s.setRng r).v = s.v := rfl
@[simp] theorem setRng_i (r : RngState) : (s.setRng r).i = s.i := rfl
@[simp] theorem setRng_pc (r : RngState) : (s.setRng r).pc = s.pc := rfl
@[simp] theorem setRng_stack (r : RngState) : (s.setRng r).stack = s.stack := rfl
@[simp] theorem setRng_dt (r : RngState) : (s.setRng r).dt = s.dt := rfl
@[simp] theorem setRng_st (r : RngState) : (s.setRng r).st = s.st := rfl
@[simp] theorem setRng_res (r : RngState) : (s.setRng r).res = s.res := rfl
@[simp] theorem setRng_fb (r : RngState) : (s.setRng r).fb = s.fb := rfl
@[simp] theorem setRng_keys (r : RngState) : (s.setRng r).keys = s.keys := rfl
@[simp] theorem setRng_ctrl (r : RngState) : (s.setRng r).ctrl = s.ctrl := rfl
@[simp] theorem setRng_flags (r : RngState) : (s.setRng r).flags = s.flags := rfl
@[simp] theorem setRng_rng (r : RngState) : (s.setRng r).rng = r := rfl
@[simp] theorem setRng_reg (r : RngState) (y : Nibble) : (s.setRng r).reg y = s.reg y := rfl
@[simp] theorem setRng_byteAt (r : RngState) (p : Nat) : (s.setRng r).byteAt p = s.byteAt p := rfl
@[simp] theorem setRng_wordAt (r : RngState) (p : Nat) : (s.setRng r).wordAt p = s.wordAt p := rfl
@[simp] theorem setRng_pixel (r : RngState) (p q : Nat) : (s.setRng r).pixel p q = s.pixel p q := rfl

/-! ## setMem -/

@[simp] theorem setMem_cfg (m : Memory) : (s.setMem m).cfg = s.cfg := rfl
@[simp] theorem setMem_mem (m : Memory) : (s.setMem m).mem = m := rfl
@[simp] theorem setMem_v (m : Memory) : (s.setMem m).v = s.v := rfl
@[simp] theorem setMem_i (m : Memory) : (s.setMem m).i = s.i := rfl
@[simp] theorem setMem_pc (m : Memory) : (s.setMem m).pc = s.pc := rfl
@[simp] theorem setMem_stack (m : Memory) : (s.setMem m).stack = s.stack := rfl
@[simp] theorem setMem_dt (m : Memory) : (s.setMem m).dt = s.dt := rfl
@[simp] theorem setMem_st (m : Memory) : (s.setMem m).st = s.st := rfl
@[simp] theorem setMem_res (m : Memory) : (s.setMem m).res = s.res := rfl
@[simp] theorem setMem_fb (m : Memory) : (s.setMem m).fb = s.fb := rfl
@[simp] theorem setMem_keys (m : Memory) : (s.setMem m).keys = s.keys := rfl
@[simp] theorem setMem_ctrl (m : Memory) : (s.setMem m).ctrl = s.ctrl := rfl
@[simp] theorem setMem_flags (m : Memory) : (s.setMem m).flags = s.flags := rfl
@[simp] theorem setMem_rng (m : Memory) : (s.setMem m).rng = s.rng := rfl
@[simp] theorem setMem_reg (m : Memory) (y : Nibble) : (s.setMem m).reg y = s.reg y := rfl
@[simp] theorem setMem_pixel (m : Memory) (p q : Nat) : (s.setMem m).pixel p q = s.pixel p q := rfl

/-! ## The V registers -/

/-- Reading the register that was written (10_state.md R16). -/
@[simp] theorem reg_setReg_same (x : Nibble) (b : Byte) : (s.setReg x b).reg x = b := by
  simp [State.reg]

/-- Reading another register than the one written (10_state.md R16). -/
theorem reg_setReg_ne {x y : Nibble} (b : Byte) (h : y ≠ x) : (s.setReg x b).reg y = s.reg y := by
  have hn : x.toNat ≠ y.toNat := fun e => h (BitVec.eq_of_toNat_eq e.symm)
  simp [State.reg, hn]

/-- Reading any register after a write. -/
theorem reg_setReg (x y : Nibble) (b : Byte) : (s.setReg x b).reg y = if y = x then b else s.reg y := by
  by_cases h : y = x
  · subst h; simp
  · simp [h, reg_setReg_ne]

/-- A register as a component of the register file. -/
theorem reg_eq_getElem (x : Nibble) : s.reg x = s.v[x.toNat]'x.isLt := rfl

/-- Writing a list of bytes from position `k` on: position `j` gets byte `j - k` if there is one. -/
theorem getElem_putBytes (bs : List Byte) (k : Nat) (v : Vector Byte 16) (j : Nat) (hj : j < 16) :
    (putBytes bs k v)[j] = if k ≤ j then bs.getD (j - k) v[j] else v[j] := by
  induction bs generalizing k v with
  | nil => simp [putBytes]
  | cons b bs ih =>
    rw [putBytes, ih]
    by_cases h1 : k + 1 ≤ j
    · have h2 : k ≤ j := by omega
      have h3 : j - k = (j - (k + 1)) + 1 := by omega
      have h4 : k ≠ j := by omega
      simp [h1, h2, h3, h4]
    · by_cases h2 : k = j
      · subst h2; simp
      · have h3 : ¬ k ≤ j := by omega
        simp [h1, h2, h3]

/-! ## The composed updates -/

@[simp] theorem advance_eq : s.advance = s.setPc (s.pc + 2) := rfl

/-- What a conditional skip leaves of everything but PC. -/
theorem skipIf_eq (c : Bool) : s.skipIf c = s.setPc (if c then s.pc + 2 else s.pc) := by
  cases c <;> rfl

/-- VF after a flag write. -/
@[simp] theorem setFlag_reg_vf (c : Bool) : (s.setFlag c).reg vf = flagByte c := by
  simp [State.setFlag]

theorem setFlag_reg_ne (c : Bool) {y : Nibble} (h : y ≠ vf) : (s.setFlag c).reg y = s.reg y := by
  simp [State.setFlag, reg_setReg_ne _ _ h]

/-- A result and then its flag: VF holds the flag, also when it is the destination (10_state.md R18). -/
theorem setRegFlag_reg (x y : Nibble) (r : Byte) (c : Bool) :
    (s.setRegFlag x r c).reg y = if y = vf then flagByte c else if y = x then r else s.reg y := by
  by_cases h : y = vf
  · subst h; simp [State.setRegFlag]
  · simp [State.setRegFlag, setFlag_reg_ne _ _ h, h, reg_setReg]

/-- A logic result: VF is cleared after it only under `logic_resets_vf` (41_alu.md R79 to R81). -/
theorem setRegLogic_reg (x y : Nibble) (r : Byte) :
    (s.setRegLogic x r).reg y =
      if s.cfg.quirks.logicResetsVf = true ∧ y = vf then 0 else if y = x then r else s.reg y := by
  unfold State.setRegLogic
  by_cases hq : s.cfg.quirks.logicResetsVf = true
  · by_cases h : y = vf
    · subst h; simp [hq, flagByte]
    · simp [hq, h, setFlag_reg_ne _ _ h, reg_setReg]
  · simp [hq, reg_setReg]

/-- A flag is exactly 0 or 1 (10_state.md R18). -/
theorem flagByte_cases (c : Bool) : flagByte c = 0 ∨ flagByte c = 1 := by
  cases c <;> simp [flagByte]

@[simp] theorem setFlag_cfg (c : Bool) : (s.setFlag c).cfg = s.cfg := rfl
@[simp] theorem setFlag_mem (c : Bool) : (s.setFlag c).mem = s.mem := rfl
@[simp] theorem setFlag_i (c : Bool) : (s.setFlag c).i = s.i := rfl
@[simp] theorem setFlag_pc (c : Bool) : (s.setFlag c).pc = s.pc := rfl
@[simp] theorem setFlag_stack (c : Bool) : (s.setFlag c).stack = s.stack := rfl
@[simp] theorem setFlag_dt (c : Bool) : (s.setFlag c).dt = s.dt := rfl
@[simp] theorem setFlag_st (c : Bool) : (s.setFlag c).st = s.st := rfl
@[simp] theorem setFlag_res (c : Bool) : (s.setFlag c).res = s.res := rfl
@[simp] theorem setFlag_fb (c : Bool) : (s.setFlag c).fb = s.fb := rfl
@[simp] theorem setFlag_keys (c : Bool) : (s.setFlag c).keys = s.keys := rfl
@[simp] theorem setFlag_ctrl (c : Bool) : (s.setFlag c).ctrl = s.ctrl := rfl
@[simp] theorem setFlag_flags (c : Bool) : (s.setFlag c).flags = s.flags := rfl
@[simp] theorem setFlag_rng (c : Bool) : (s.setFlag c).rng = s.rng := rfl
@[simp] theorem setFlag_byteAt (c : Bool) (p : Nat) : (s.setFlag c).byteAt p = s.byteAt p := rfl
@[simp] theorem setRegFlag_cfg (x : Nibble) (r : Byte) (c : Bool) : (s.setRegFlag x r c).cfg = s.cfg := rfl
@[simp] theorem setRegFlag_mem (x : Nibble) (r : Byte) (c : Bool) : (s.setRegFlag x r c).mem = s.mem := rfl
@[simp] theorem setRegFlag_i (x : Nibble) (r : Byte) (c : Bool) : (s.setRegFlag x r c).i = s.i := rfl
@[simp] theorem setRegFlag_pc (x : Nibble) (r : Byte) (c : Bool) : (s.setRegFlag x r c).pc = s.pc := rfl
@[simp] theorem setRegFlag_stack (x : Nibble) (r : Byte) (c : Bool) : (s.setRegFlag x r c).stack = s.stack := rfl
@[simp] theorem setRegFlag_dt (x : Nibble) (r : Byte) (c : Bool) : (s.setRegFlag x r c).dt = s.dt := rfl
@[simp] theorem setRegFlag_st (x : Nibble) (r : Byte) (c : Bool) : (s.setRegFlag x r c).st = s.st := rfl
@[simp] theorem setRegFlag_res (x : Nibble) (r : Byte) (c : Bool) : (s.setRegFlag x r c).res = s.res := rfl
@[simp] theorem setRegFlag_fb (x : Nibble) (r : Byte) (c : Bool) : (s.setRegFlag x r c).fb = s.fb := rfl
@[simp] theorem setRegFlag_keys (x : Nibble) (r : Byte) (c : Bool) : (s.setRegFlag x r c).keys = s.keys := rfl
@[simp] theorem setRegFlag_ctrl (x : Nibble) (r : Byte) (c : Bool) : (s.setRegFlag x r c).ctrl = s.ctrl := rfl
@[simp] theorem setRegFlag_flags (x : Nibble) (r : Byte) (c : Bool) : (s.setRegFlag x r c).flags = s.flags := rfl
@[simp] theorem setRegFlag_rng (x : Nibble) (r : Byte) (c : Bool) : (s.setRegFlag x r c).rng = s.rng := rfl
@[simp] theorem setRegFlag_byteAt (x : Nibble) (r : Byte) (c : Bool) (p : Nat) : (s.setRegFlag x r c).byteAt p = s.byteAt p := rfl
@[simp] theorem setRegLogic_cfg (x : Nibble) (r : Byte) : (s.setRegLogic x r).cfg = s.cfg := by
  unfold State.setRegLogic; split <;> rfl
@[simp] theorem setRegLogic_mem (x : Nibble) (r : Byte) : (s.setRegLogic x r).mem = s.mem := by
  unfold State.setRegLogic; split <;> rfl
@[simp] theorem setRegLogic_i (x : Nibble) (r : Byte) : (s.setRegLogic x r).i = s.i := by
  unfold State.setRegLogic; split <;> rfl
@[simp] theorem setRegLogic_pc (x : Nibble) (r : Byte) : (s.setRegLogic x r).pc = s.pc := by
  unfold State.setRegLogic; split <;> rfl
@[simp] theorem setRegLogic_stack (x : Nibble) (r : Byte) : (s.setRegLogic x r).stack = s.stack := by
  unfold State.setRegLogic; split <;> rfl
@[simp] theorem setRegLogic_dt (x : Nibble) (r : Byte) : (s.setRegLogic x r).dt = s.dt := by
  unfold State.setRegLogic; split <;> rfl
@[simp] theorem setRegLogic_st (x : Nibble) (r : Byte) : (s.setRegLogic x r).st = s.st := by
  unfold State.setRegLogic; split <;> rfl
@[simp] theorem setRegLogic_res (x : Nibble) (r : Byte) : (s.setRegLogic x r).res = s.res := by
  unfold State.setRegLogic; split <;> rfl
@[simp] theorem setRegLogic_fb (x : Nibble) (r : Byte) : (s.setRegLogic x r).fb = s.fb := by
  unfold State.setRegLogic; split <;> rfl
@[simp] theorem setRegLogic_keys (x : Nibble) (r : Byte) : (s.setRegLogic x r).keys = s.keys := by
  unfold State.setRegLogic; split <;> rfl
@[simp] theorem setRegLogic_ctrl (x : Nibble) (r : Byte) : (s.setRegLogic x r).ctrl = s.ctrl := by
  unfold State.setRegLogic; split <;> rfl
@[simp] theorem setRegLogic_flags (x : Nibble) (r : Byte) : (s.setRegLogic x r).flags = s.flags := by
  unfold State.setRegLogic; split <;> rfl
@[simp] theorem setRegLogic_rng (x : Nibble) (r : Byte) : (s.setRegLogic x r).rng = s.rng := by
  unfold State.setRegLogic; split <;> rfl
@[simp] theorem setRegLogic_byteAt (x : Nibble) (r : Byte) (p : Nat) :
    (s.setRegLogic x r).byteAt p = s.byteAt p := by
  unfold State.setRegLogic; split <;> rfl

end Sys2Proof.Machine
end

