-- ==== Sys2Proof/Laws/Memory.lean ====
section
/-! SUPPORT. Memory: read after write, the canonical form, the range check and the accesses built on it
(20_memory.md R40, R41, R43). -/

namespace Sys2Proof.Machine

variable (d : Nat → Byte)

/-! ## The list of cells -/

theorem Memory.read_cons' (k : Nat) (b : Byte) (m : Memory) (a : Nat) :
    Memory.read d ((k, b) :: m) a = if k = a then b else Memory.read d m a := rfl

/-- Reading an address below every listed one. -/
theorem Memory.read_unlisted {m : Memory} {a : Nat} (h : ∀ c ∈ m, c.1 ≠ a) : Memory.read d m a = d a := by
  induction m with
  | nil => rfl
  | cons c m ih =>
    rw [show c = (c.1, c.2) from rfl, Memory.read_cons', if_neg (h c (by simp)),
      ih fun c' hc => h c' (by simp [hc])]

/-- Putting a cell in front: its address reads the byte when no later cell has that address. -/
theorem Memory.read_cons_cell {m : Memory} {a : Nat} (b : Byte) (h : ∀ c ∈ m, c.1 ≠ a) (k : Nat) :
    Memory.read d (Memory.cons d a b m) k = if k = a then b else Memory.read d m k := by
  unfold Memory.cons
  by_cases hb : b = d a
  · by_cases hk : k = a
    · subst hk; simp [hb, Memory.read_unlisted d h]
    · simp [hb, hk]
  · by_cases hk : k = a
    · subst hk; simp [hb, Memory.read_cons']
    · simp [hb, hk, Memory.read_cons', Ne.symm hk]

/-- Read after write, any two addresses. -/
theorem Memory.read_write {m : Memory} (hm : m.Pairwise fun a b => a.1 < b.1) (a : Nat) (b : Byte) (k : Nat) :
    Memory.read d (Memory.write d m a b) k = if k = a then b else Memory.read d m k := by
  induction m with
  | nil => exact Memory.read_cons_cell d b (by simp) k
  | cons c m ih =>
    obtain ⟨a', b'⟩ := c
    rw [List.pairwise_cons] at hm
    unfold Memory.write
    by_cases h1 : a < a'
    · rw [if_pos h1, Memory.read_cons_cell d b]
      intro c hc
      rcases List.mem_cons.1 hc with rfl | hc
      · exact Nat.ne_of_gt h1
      · exact Nat.ne_of_gt (Nat.lt_trans h1 (hm.1 c hc))
    · by_cases h2 : a = a'
      · subst h2
        rw [if_neg h1, if_pos rfl, Memory.read_cons_cell d b fun c hc => Nat.ne_of_gt (hm.1 c hc), Memory.read_cons']
        by_cases hk : k = a
        · simp [hk]
        · simp [hk, Ne.symm hk]
      · rw [if_neg h1, if_neg h2, Memory.read_cons', Memory.read_cons', ih hm.2]
        by_cases hk : k = a
        · subst hk; simp [Ne.symm h2]
        · simp [hk]

/-- Every cell of the memory written is the new one or an old one. -/
theorem Memory.mem_write {m : Memory} {a : Nat} {b : Byte} {c : Host.Cell} (h : c ∈ Memory.write d m a b) :
    (c = (a, b) ∧ b ≠ d a) ∨ c ∈ m := by
  have hcons : ∀ m' : Memory, c ∈ Memory.cons d a b m' → (c = (a, b) ∧ b ≠ d a) ∨ c ∈ m' := by
    intro m' h'
    unfold Memory.cons at h'
    split at h'
    · exact .inr h'
    · rcases List.mem_cons.1 h' with h' | h'
      · exact .inl ⟨h', ‹_›⟩
      · exact .inr h'
  induction m with
  | nil => exact hcons [] h
  | cons c' m ih =>
    obtain ⟨k, b'⟩ := c'
    unfold Memory.write at h
    split at h
    · exact hcons _ h
    · split at h
      · exact (hcons _ h).imp_right (List.mem_cons_of_mem _)
      · rcases List.mem_cons.1 h with h | h
        · exact .inr (h ▸ List.mem_cons_self)
        · exact (ih h).imp_right (List.mem_cons_of_mem _)

/-- A write keeps the canonical form. -/
theorem Memory.wf_write {m : Memory} (hm : Memory.wf d m) {a : Nat} (ha : a < memSize) (b : Byte) :
    Memory.wf d (Memory.write d m a b) := by
  refine ⟨?_, fun c hc => ?_⟩
  · have hsort := hm.1
    clear hm
    induction m with
    | nil => unfold Memory.write Memory.cons; split <;> simp
    | cons c' m ih =>
      obtain ⟨k, b'⟩ := c'
      have hs := List.pairwise_cons.1 hsort
      unfold Memory.write Memory.cons
      split
      · split
        · exact hsort
        · refine List.pairwise_cons.2 ⟨fun c hc => ?_, hsort⟩
          rcases List.mem_cons.1 hc with rfl | hc
          · assumption
          · exact Nat.lt_trans ‹_› (hs.1 c hc)
      · split
        · subst_vars
          split
          · exact hs.2
          · exact List.pairwise_cons.2 ⟨hs.1, hs.2⟩
        · refine List.pairwise_cons.2 ⟨fun c hc => ?_, ih hs.2⟩
          rcases Memory.mem_write d hc with ⟨rfl, -⟩ | hc
          · show k < a; omega
          · exact hs.1 c hc
  · rcases Memory.mem_write d hc with ⟨rfl, hb⟩ | hc
    · exact ⟨ha, hb⟩
    · exact hm.2 c hc

/-! ## Bytes of the state -/

variable (s : State)

theorem byteAt_putByte (h : s.MemWf) (a : Nat) (b : Byte) (k : Nat) :
    (s.putByte a b).byteAt k = if k = a then b else s.byteAt k :=
  Memory.read_write (resetByte s.cfg) h.1 a b k

theorem memWf_putByte (h : s.MemWf) {a : Nat} (ha : a < memSize) (b : Byte) : (s.putByte a b).MemWf :=
  Memory.wf_write _ h ha b

/-- Writing bytes changes memory only: everything else is that of the old state. -/
theorem putBytesAt_eq (a : Nat) (bs : List Byte) : ∃ m, s.putBytesAt a bs = s.setMem m := by
  induction bs generalizing s a with
  | nil => exact ⟨s.mem, rfl⟩
  | cons b bs ih =>
    obtain ⟨m, hm⟩ := ih (s.putByte a b) (a + 1)
    exact ⟨m, by rw [State.putBytesAt, hm]; rfl⟩

/-- Writing bytes inside the address space keeps the canonical form. -/
theorem memWf_putBytesAt (h : s.MemWf) (a : Nat) (bs : List Byte) (hb : a + bs.length ≤ memSize) :
    (s.putBytesAt a bs).MemWf := by
  induction bs generalizing s a with
  | nil => exact h
  | cons b bs ih =>
    simp only [List.length_cons] at hb
    exact ih _ (memWf_putByte s h (by omega) b) _ (by omega)

/-- Reading after writing bytes: byte `k - a` where there is one, else what was there. -/
theorem byteAt_putBytesAt (h : s.MemWf) (a : Nat) (bs : List Byte) (hb : a + bs.length ≤ memSize) (k : Nat) :
    (s.putBytesAt a bs).byteAt k = if a ≤ k then bs.getD (k - a) (s.byteAt k) else s.byteAt k := by
  induction bs generalizing s a with
  | nil => simp [State.putBytesAt]
  | cons b bs ih =>
    simp only [List.length_cons] at hb
    rw [State.putBytesAt, ih _ (memWf_putByte s h (by omega) b) _ (by omega), byteAt_putByte s h]
    by_cases h1 : a + 1 ≤ k
    · have h3 : k - a = (k - (a + 1)) + 1 := by omega
      have h4 : k ≠ a := by omega
      simp [h1, h3, h4, show a ≤ k by omega]
    · by_cases h2 : k = a
      · subst h2; simp
      · simp [h1, h2, show ¬ a ≤ k by omega]

/-! ## The range check -/

/-- An access inside the address space, or of no byte, passes. -/
theorem checkRange_ok {a n : Nat} (h : n = 0 ∨ a + n ≤ memSize) : checkRange a n = .ok () := by
  unfold checkRange
  rw [List.find?_eq_none.2]
  intro k hk
  have := List.mem_range.1 hk
  simp; omega

/-- An access that passes is of no byte or inside the address space. -/
theorem checkRange_eq_ok_iff {a n : Nat} : checkRange a n = .ok () ↔ n = 0 ∨ a + n ≤ memSize := by
  refine ⟨fun h => ?_, checkRange_ok⟩
  unfold checkRange at h
  split at h
  · cases h
  · rename_i h'
    by_contra hc
    have := List.find?_eq_none.1 h' (n - 1) (List.mem_range.2 (by omega))
    simp at this; omega

/-- An access that reaches above 0xFFF fails with the first such address (20_memory.md R40). -/
theorem checkRange_error {a n : Nat} (hn : n ≠ 0) (h : memSize < a + n) :
    checkRange a n = .error (.outOfBoundsAccess (max a memSize)) := by
  unfold checkRange
  have hk : (List.range n).find? (fun k => decide (memSize ≤ a + k)) = some (memSize - a) := by
    rw [List.find?_range_eq_some]
    refine ⟨by simp; omega, List.mem_range.2 (by omega), fun j hj => by simp; omega⟩
  rw [hk]
  simp only [Except.error.injEq, Fault.outOfBoundsAccess.injEq]
  omega

/-- Everything the range check can answer. -/
theorem checkRange_cases (a n : Nat) :
    (checkRange a n = .ok () ∧ (n = 0 ∨ a + n ≤ memSize)) ∨
      (checkRange a n = .error (.outOfBoundsAccess (max a memSize)) ∧ n ≠ 0 ∧ memSize < a + n) := by
  by_cases h : n = 0 ∨ a + n ≤ memSize
  · exact .inl ⟨checkRange_ok h, h⟩
  · exact .inr ⟨checkRange_error (by omega) (by omega), by omega, by omega⟩

/-! ## Reading and writing several bytes -/

theorem memRead_ok {a n : Nat} (h : n = 0 ∨ a + n ≤ memSize) :
    s.memRead a n = .ok ((List.range n).map fun k => s.byteAt (a + k)) := by
  simp [State.memRead, checkRange_ok h, Except.map]

theorem memRead_error {a n : Nat} (hn : n ≠ 0) (h : memSize < a + n) :
    s.memRead a n = .error (.outOfBoundsAccess (max a memSize)) := by
  simp [State.memRead, checkRange_error hn h, Except.map]

theorem memReadWords_ok {a n : Nat} (h : n = 0 ∨ a + 2 * n ≤ memSize) :
    s.memReadWords a n = .ok ((List.range n).map fun k => s.wordAt (a + 2 * k)) := by
  have h' : 2 * n = 0 ∨ a + 2 * n ≤ memSize := by omega
  simp [State.memReadWords, checkRange_ok h', Except.map]

theorem memReadWords_error {a n : Nat} (hn : n ≠ 0) (h : memSize < a + 2 * n) :
    s.memReadWords a n = .error (.outOfBoundsAccess (max a memSize)) := by
  have hn' : 2 * n ≠ 0 := by omega
  simp [State.memReadWords, checkRange_error hn' h, Except.map]

theorem memWrite_ok {a : Nat} {bs : List Byte} (h : bs.length = 0 ∨ a + bs.length ≤ memSize) :
    s.memWrite a bs = .ok (s.putBytesAt a bs) := by
  simp [State.memWrite, checkRange_ok h, Except.map]

theorem memWrite_error {a : Nat} {bs : List Byte} (hn : bs.length ≠ 0) (h : memSize < a + bs.length) :
    s.memWrite a bs = .error (.outOfBoundsAccess (max a memSize)) := by
  simp [State.memWrite, checkRange_error hn h, Except.map]

theorem fetch_ok (h : s.pc.toNat + 2 ≤ memSize) : s.fetch = .ok (s.wordAt s.pc.toNat) := by
  simp [State.fetch, checkRange_ok (.inr h), Except.map]

theorem fetch_error (h : memSize < s.pc.toNat + 2) :
    s.fetch = .error (.outOfBoundsAccess (max s.pc.toNat memSize)) := by
  simp [State.fetch, checkRange_error (by decide : (2 : Nat) ≠ 0) h, Except.map]

end Sys2Proof.Machine
end

