-- ==== Sys2Proof/Laws/Screen.lean ====
section
/-! SUPPORT. The display: pixels of built grids, one toggled pixel, and what a whole sprite does
(43_display.md R96, R97; 45_superchip.md R108, R111). -/

namespace Sys2Proof.Machine

variable (r : Resolution)

theorem Resolution.width_pos : 0 < r.width := by cases r <;> decide
theorem Resolution.height_pos : 0 < r.height := by cases r <;> decide

/-! ## Grids built whole -/

/-- A pixel of a tabulated grid. -/
theorem pixel_tabulate (f : Nat → Nat → Bool) (x y : Nat) :
    (Grid.tabulate r f).pixel x y = if x < r.width ∧ y < r.height then f x y else false := by
  unfold Grid.pixel Grid.tabulate
  by_cases hy : y < r.height
  · by_cases hx : x < r.width
    · simp [List.getD, hx, hy]
    · simp [List.getD, hx, hy]
  · simp [List.getD, hy]

theorem fits_tabulate (f : Nat → Nat → Bool) : (Grid.tabulate r f).fits r := by
  simp [Grid.fits, Grid.tabulate]

theorem blank_eq_tabulate : Grid.blank r = Grid.tabulate r fun _ _ => false := by
  simp [Grid.blank, Grid.tabulate]

/-- Every pixel of a cleared grid is off (43_display.md R96). -/
@[simp] theorem pixel_blank (x y : Nat) : (Grid.blank r).pixel x y = false := by
  rw [blank_eq_tabulate, pixel_tabulate]; simp

theorem fits_blank : (Grid.blank r).fits r := by
  rw [blank_eq_tabulate]; exact fits_tabulate r _

/-! ## One toggled pixel -/

theorem fits_toggle {r : Resolution} {g : Grid} (h : g.fits r) (x y : Nat) : (g.toggle x y).fits r := by
  refine ⟨by simpa [Grid.toggle] using h.1, fun row hrow => ?_⟩
  obtain ⟨k, hk, rfl⟩ := List.getElem_of_mem hrow
  simp only [Grid.toggle, List.getElem_modify]
  split
  · simpa using h.2 _ (List.getElem_mem _)
  · exact h.2 _ (List.getElem_mem _)

/-- Toggling a pixel of the grid turns that pixel over and leaves every other alone. -/
theorem pixel_toggle {r : Resolution} {g : Grid} (h : g.fits r) {x y : Nat} (hx : x < r.width) (hy : y < r.height)
    (k l : Nat) : (g.toggle x y).pixel k l = if k = x ∧ l = y then !g.pixel x y else g.pixel k l := by
  unfold Grid.pixel Grid.toggle
  have hy' : y < g.length := h.1 ▸ hy
  have hrow : (g[y]).length = r.width := h.2 _ (List.getElem_mem hy')
  by_cases hl : l = y
  · subst hl
    by_cases hk : k = x
    · subst hk
      simp [List.getD, hy', hrow, hx]
    · simp [List.getD, hy', hk, Ne.symm hk]
  · simp [List.getD, hl, Ne.symm hl]

/-! ## A list of toggled pixels -/

theorem fits_plot {r : Resolution} (cells : List (Nat × Nat)) (acc : Grid × Bool) (h : acc.1.fits r) :
    (cells.foldl plot acc).1.fits r := by
  induction cells generalizing acc with
  | nil => exact h
  | cons p cells ih => exact ih _ (fits_toggle h p.1 p.2)

/-- Toggling places of the grid, none twice: a pixel turns over exactly when its place is listed, and the collision
is that some listed pixel was on (43_display.md R97). -/
theorem foldl_plot {r : Resolution} (cells : List (Nat × Nat)) (acc : Grid × Bool) (h : acc.1.fits r)
    (hin : ∀ p ∈ cells, p.1 < r.width ∧ p.2 < r.height) (hnd : cells.Nodup) :
    (∀ k l, (cells.foldl plot acc).1.pixel k l = (acc.1.pixel k l ^^ decide ((k, l) ∈ cells))) ∧
      ((cells.foldl plot acc).2 = true ↔ acc.2 = true ∨ ∃ p ∈ cells, acc.1.pixel p.1 p.2 = true) := by
  induction cells generalizing acc with
  | nil => simp
  | cons p cells ih =>
    obtain ⟨x, y⟩ := p
    obtain ⟨hx, hy⟩ := hin (x, y) (by simp)
    rw [List.nodup_cons] at hnd
    obtain ⟨ih1, ih2⟩ := ih (plot acc (x, y)) (fits_toggle h x y) (fun q hq => hin q (by simp [hq])) hnd.2
    have htog := pixel_toggle h hx hy
    refine ⟨fun k l => ?_, ?_⟩
    · rw [List.foldl_cons, ih1]
      simp only [plot, htog]
      by_cases hkl : k = x ∧ l = y
      · obtain ⟨rfl, rfl⟩ := hkl
        simp [hnd.1]
      · have : (k, l) ≠ (x, y) := by simpa using hkl
        simp [hkl, this]
    · rw [List.foldl_cons, ih2]
      simp only [plot, htog, Bool.or_eq_true, List.mem_cons, exists_eq_or_imp]
      rw [or_assoc]
      refine or_congr Iff.rfl (or_congr Iff.rfl ⟨?_, ?_⟩)
      · rintro ⟨q, hq, hp⟩
        refine ⟨q, hq, ?_⟩
        rwa [if_neg] at hp
        rintro ⟨h1, h2⟩
        exact hnd.1 (by rwa [← h1, ← h2])
      · rintro ⟨q, hq, hp⟩
        refine ⟨q, hq, ?_⟩
        rwa [if_neg]
        rintro ⟨h1, h2⟩
        exact hnd.1 (by rwa [← h1, ← h2])

/-! ## Sprites -/

variable {width : Nat} (x y : Nat) (rows : List (BitVec width))

/-- The places of a sprite: row k, column c, for each set bit (43_display.md R97). -/
theorem mem_spriteCells (p : Nat × Nat) :
    p ∈ spriteCells r x y rows ↔ ∃ k c, ∃ h : k < rows.length, c < width ∧ (rows[k]).getMsbD c = true ∧
      p = ((x + c) % r.width, (y + k) % r.height) := by
  simp only [spriteCells, List.mem_flatMap, List.mem_map, List.mem_filter, List.mem_range]
  constructor
  · rintro ⟨⟨row, k⟩, hrow, c, ⟨hc, hb⟩, rfl⟩
    obtain ⟨hk, hr⟩ := List.mem_zipIdx' hrow
    exact ⟨k, c, hk, hc, hr ▸ hb, rfl⟩
  · rintro ⟨k, c, hk, hc, hb, rfl⟩
    exact ⟨(rows[k], k), List.mem_zipIdx_iff_getElem?.2 (by simp [hk]), c, ⟨hc, hb⟩, rfl⟩

theorem spriteCells_in_grid : ∀ p ∈ spriteCells r x y rows, p.1 < r.width ∧ p.2 < r.height := by
  intro p hp
  obtain ⟨k, c, -, -, -, rfl⟩ := (mem_spriteCells r x y rows p).1 hp
  exact ⟨Nat.mod_lt _ r.width_pos, Nat.mod_lt _ r.height_pos⟩

theorem add_mod_inj {x a b m : Nat} (ha : a < m) (hb : b < m) (h : (x + a) % m = (x + b) % m) : a = b := by
  have h' : a ≡ b [MOD m] := Nat.ModEq.add_left_cancel' x h
  rwa [Nat.ModEq, Nat.mod_eq_of_lt ha, Nat.mod_eq_of_lt hb] at h'

/-- No pixel is toggled twice when the sprite is no larger than the grid (43_display.md R97). -/
theorem nodup_spriteCells (hw : width ≤ r.width) (hh : rows.length ≤ r.height) : (spriteCells r x y rows).Nodup := by
  rw [spriteCells, List.nodup_flatMap]
  refine ⟨fun p _ => ?_, ?_⟩
  · refine List.Nodup.map_on ?_ (List.nodup_range.filter _)
    intro a ha b hb hab
    simp only [List.mem_filter, List.mem_range] at ha hb
    exact add_mod_inj (by omega) (by omega) (Prod.ext_iff.1 hab).1
  · rw [List.pairwise_iff_getElem]
    intro i j hi hj hij p hp1 hp2
    simp only [List.getElem_zipIdx, List.mem_map, List.mem_filter] at hp1 hp2
    obtain ⟨c1, -, rfl⟩ := hp1
    obtain ⟨c2, -, h⟩ := hp2
    rw [List.length_zipIdx] at hi hj
    have := add_mod_inj (by omega) (by omega) (Prod.ext_iff.1 h).2
    omega

/-- Everything `draw_sprite` does, for a sprite no larger than the grid (43_display.md R97): the grid keeps its shape,
a pixel turns over exactly when the sprite has a set bit there, and the flag says that one of those was on. -/
theorem drawSprite_spec {r : Resolution} {g : Grid} (h : g.fits r) (hw : width ≤ r.width)
    (hh : rows.length ≤ r.height) :
    (drawSprite r g x y rows).1.fits r ∧
      (∀ k l, (drawSprite r g x y rows).1.pixel k l =
        (g.pixel k l ^^ decide ((k, l) ∈ spriteCells r x y rows))) ∧
      ((drawSprite r g x y rows).2 = true ↔ ∃ p ∈ spriteCells r x y rows, g.pixel p.1 p.2 = true) := by
  have hp := foldl_plot (spriteCells r x y rows) (g, false) h (spriteCells_in_grid r x y rows)
    (nodup_spriteCells r x y rows hw hh)
  exact ⟨fits_plot _ (g, false) h, hp.1, hp.2.trans (by simp)⟩

theorem fits_drawSprite {r : Resolution} {g : Grid} (h : g.fits r) : (drawSprite r g x y rows).1.fits r :=
  fits_plot _ (g, false) h

/-! ## The display of the state -/

variable (s : State)

theorem setResolution_pixel (k l : Nat) : (s.setResolution r).pixel k l = false := pixel_blank r k l

theorem clear_pixel (k l : Nat) : s.clear.pixel k l = false := pixel_blank s.res k l

theorem remap_pixel (f : (Nat → Nat → Bool) → Nat → Nat → Bool) (k l : Nat) :
    (s.remap f).pixel k l = if k < s.res.width ∧ l < s.res.height then f s.fb.pixel k l else false :=
  pixel_tabulate s.res _ k l

/-- A draw changes the framebuffer and VF only. -/
theorem draw_eq (a b : Nibble) : ∃ g c, s.draw a b rows = (s.setDisplay s.res g).setFlag c := ⟨_, _, rfl⟩

end Sys2Proof.Machine
end

