-- ==== Sys2Proof/Laws/Ops.lean ====
section
/-! SUPPORT. What each shared operation can do, said once: raising, the stack, the key-wait poll, register lists, and the
inversion of a step. -/

namespace Sys2Proof.Machine

variable (s : State)

/-! ## Going on or raising -/

theorem orRaise_eq_next {α : Type} {r : Except Fault α} {k : α → Result} {t : State} :
    orRaise r k = .next t ↔ ∃ a, r = .ok a ∧ k a = .next t := by
  cases r <;> simp [orRaise, raise]

theorem orRaise_eq_fault {α : Type} {r : Except Fault α} {k : α → Result} {e : Fault} :
    orRaise r k = .fault e ↔ r = .error e ∨ ∃ a, r = .ok a ∧ k a = .fault e := by
  cases r <;> simp [orRaise, raise]

theorem orRaise_eq_refused {α : Type} {r : Except Fault α} {k : α → Result} {e : Refusal} :
    orRaise r k = .refused e ↔ ∃ a, r = .ok a ∧ k a = .refused e := by
  cases r <;> simp [orRaise, raise]

@[simp] theorem orRaise_ok {α : Type} (a : α) (k : α → Result) : orRaise (.ok a) k = k a := rfl

@[simp] theorem orRaise_error {α : Type} (e : Fault) (k : α → Result) : orRaise (.error e) k = .fault e := rfl

/-! ## The return-address stack -/

/-- Everything `push` can do (10_state.md R25). -/
theorem push_cases (a : Word) :
    (s.stack.length = 16 ∧ s.push a = .error (.stackOverflow s.pc0)) ∨
      (s.stack.length ≠ 16 ∧ s.push a = .ok (s.setStack (s.stack ++ [a]))) := by
  unfold State.push
  split <;> simp_all

/-- Everything `pop` can do (10_state.md R26). -/
theorem pop_cases :
    (s.stack = [] ∧ s.pop = .error (.stackUnderflow s.pc0)) ∨
      ∃ l a, s.stack = l ++ [a] ∧ s.pop = .ok (a, s.setStack l) := by
  rcases List.eq_nil_or_concat s.stack with h | ⟨l, a, h⟩
  · exact .inl ⟨h, by simp [State.pop, h]⟩
  · exact .inr ⟨l, a, by simp [h], by simp [State.pop, h]⟩

/-- LIFO: what was pushed last is popped first, and the stack is as before (10_state.md R26). -/
theorem pop_push {t : State} {a : Word} (h : s.push a = .ok t) : t.pop = .ok (a, s) := by
  rcases push_cases s a with ⟨-, h'⟩ | ⟨-, h'⟩ <;> rw [h'] at h
  · cases h
  · cases h; simp [State.pop, State.setStack]

/-! ## The keypad and the key wait -/

/-- The key found is pressed and no lower one is (60_exceptions.md R128). -/
theorem lowestPressed_eq_some {keys : Vector Bool 16} {k : Nat} :
    lowestPressed keys = some k ↔ ∃ h : k < 16, keys[k] = true ∧ ∀ j, (hj : j < k) → keys[j] = false := by
  unfold lowestPressed
  rw [List.find?_range_eq_some]
  constructor
  · rintro ⟨hk, hm, hlow⟩
    have hk16 : k < 16 := List.mem_range.1 hm
    refine ⟨hk16, by simpa [List.getD, hk16] using hk, fun j hj => ?_⟩
    have hj16 : j < 16 := by omega
    simpa [List.getD, hj16] using hlow j hj
  · rintro ⟨hk16, hk, hlow⟩
    refine ⟨by simpa [List.getD, hk16] using hk, List.mem_range.2 hk16, fun j hj => ?_⟩
    have hj16 : j < 16 := by omega
    simpa [List.getD, hj16] using hlow j hj

/-- No key is found exactly when none is pressed. -/
theorem lowestPressed_eq_none {keys : Vector Bool 16} :
    lowestPressed keys = none ↔ ∀ k, (h : k < 16) → keys[k] = false := by
  unfold lowestPressed
  rw [List.find?_eq_none]
  constructor
  · intro h k hk
    simpa [List.getD, hk] using h k (List.mem_range.2 hk)
  · intro h k hk
    have hk' := List.mem_range.1 hk
    simp [List.getD, hk', h k hk']

/-- Everything the start of a STEP can do (30_encoding.md R63). -/
theorem poll_cases :
    (s.ctrl = .running ∧ s.poll = some s) ∨ (s.ctrl = .halted ∧ s.poll = none) ∨
      (∃ x, s.ctrl = .waitingForKey x ∧ lowestPressed s.keys = none ∧ s.poll = none) ∨
      ∃ x k, s.ctrl = .waitingForKey x ∧ lowestPressed s.keys = some k ∧
        s.poll = some ((s.setReg x (BitVec.ofNat 8 k)).setCtrl .running) := by
  unfold State.poll
  cases hc : s.ctrl with
  | running => simp
  | halted => simp
  | waitingForKey x => cases hk : lowestPressed s.keys <;> simp

/-- A step that goes on to fetch does so from a running state that differs from the start at most in the register of
the key wait and in the control state. -/
theorem poll_some {t : State} (h : s.poll = some t) :
    t.ctrl = .running ∧ ((s.ctrl = .running ∧ t = s) ∨
      ∃ x k, s.ctrl = .waitingForKey x ∧ lowestPressed s.keys = some k ∧
        t = (s.setReg x (BitVec.ofNat 8 k)).setCtrl .running) := by
  rcases poll_cases s with ⟨hc, hp⟩ | ⟨-, hp⟩ | ⟨x, -, -, hp⟩ | ⟨x, k, hc, hk, hp⟩ <;> rw [hp] at h <;>
    simp only [Option.some.injEq, reduceCtorEq] at h <;> subst h
  · exact ⟨hc, .inl ⟨hc, rfl⟩⟩
  · exact ⟨rfl, .inr ⟨x, k, hc, hk, rfl⟩⟩

/-! ## The step -/

theorem step_eq : step s = match s.poll with | none => .next s | some t => t.fetchExecute := rfl

/-- Everything a fetch and its instruction can do (30_encoding.md R63, R64; 60_exceptions.md R121). -/
theorem fetchExecute_cases :
    (memSize < s.pc.toNat + 2 ∧ s.fetchExecute = .fault (.outOfBoundsAccess (max s.pc.toNat memSize))) ∨
      (s.pc.toNat + 2 ≤ memSize ∧
        ((∃ i, decodeIn s.cfg (s.wordAt s.pc.toNat) = some i ∧ s.fetchExecute = exec i s.advance) ∨
          (decodeIn s.cfg (s.wordAt s.pc.toNat) = none ∧
            ((s.cfg.unknownPolicy = .fail ∧
                s.fetchExecute = .fault (.unknownOpcode (s.wordAt s.pc.toNat) s.pc)) ∨
              (s.cfg.unknownPolicy = .skip ∧ s.fetchExecute = .next s.advance))))) := by
  by_cases h : memSize < s.pc.toNat + 2
  · exact .inl ⟨h, by simp [State.fetchExecute, fetch_error s h]⟩
  · have h' : s.pc.toNat + 2 ≤ memSize := by omega
    refine .inr ⟨h', ?_⟩
    have he : s.fetchExecute = match decodeIn s.cfg (s.wordAt s.pc.toNat) with
        | none => unknownWord (s.wordAt s.pc.toNat) s.pc s.advance | some i => exec i s.advance :=
      (congrArg (fun r => orRaise r _) (fetch_ok s h')).trans rfl
    rw [he]
    cases hd : decodeIn s.cfg (s.wordAt s.pc.toNat) with
    | some i => exact .inl ⟨i, rfl, rfl⟩
    | none =>
      cases hp : s.cfg.unknownPolicy <;> simp [unknownWord, hp, raise]

/-! ## Lists of registers and bytes -/

@[simp] theorem length_regsUpTo (x : Nibble) : (s.regsUpTo x).length = x.toNat + 1 := by simp [State.regsUpTo]

@[simp] theorem length_flagsUpTo (x : Nibble) : (s.flagsUpTo x).length = x.toNat + 1 := by simp [State.flagsUpTo]

@[simp] theorem length_bcdDigits (b : Byte) : (bcdDigits b).length = 3 := rfl

/-- Byte k of `V[0] ++ ... ++ V[X]` is V[k]. -/
theorem getD_regsUpTo (x k : Nibble) (hk : k.toNat ≤ x.toNat) (d : Byte) : (s.regsUpTo x).getD k.toNat d = s.reg k := by
  simp [State.regsUpTo, List.getD, show k.toNat < x.toNat + 1 by omega]

/-- Byte k of `flags[0]` to `flags[X]`. -/
theorem getD_flagsUpTo (x k : Nibble) (hk : k.toNat ≤ x.toNat) (d : Byte) :
    (s.flagsUpTo x).getD k.toNat d = s.flags[k.toNat]'k.isLt := by
  have hk16 := k.isLt
  simp [State.flagsUpTo, List.getD, show k.toNat < x.toNat + 1 by omega, hk16]

/-- A register after a list of bytes was written from V0 on. -/
theorem reg_setV_putBytes (bs : List Byte) (k : Nibble) :
    (s.setV (putBytes bs 0 s.v)).reg k = bs.getD k.toNat (s.reg k) := by
  rw [State.reg]
  simp only [setV_v]
  rw [getElem_putBytes]
  simp [reg_eq_getElem]

/-! ## INIT -/

theorem fresh_memWf (c : Config) (seed : Nat) : (State.fresh c seed).MemWf := by
  simp [State.MemWf, State.fresh, Memory.wf]

theorem fresh_byteAt (c : Config) (seed a : Nat) : (State.fresh c seed).byteAt a = resetByte c a := rfl

/-- Everything INIT can answer (70_reset_and_hazards.md R139). -/
theorem initCore_cases (c : Config) (seed : Nat) (rom : List Byte) :
    (progMax < rom.length ∧ initCore c seed rom = .error (.romTooLarge rom.length)) ∨
      (rom.length ≤ progMax ∧ initCore c seed rom = .ok ((State.fresh c seed).load rom)) := by
  unfold initCore
  by_cases h : progMax < rom.length
  · exact .inl ⟨h, if_pos h⟩
  · exact .inr ⟨by omega, if_neg h⟩

end Sys2Proof.Machine
end

