-- ==== Sys2Proof/Laws/PerInstr.lean ====
section
/-! SUPPORT. Per-instruction laws over the syntax: each instruction's word lies in its row of spec/opcode_table.json, its
bits under the row's mask being the row's match. -/

namespace Sys2Proof.Laws.RowMatch

/-- The columns "match" and "mask" of the instruction's row in spec/opcode_table.json. -/
def row : Instr → Word × Word
  | .cls => (0x00E0, 0xFFFF)
  | .ret => (0x00EE, 0xFFFF)
  | .scd _ => (0x00C0, 0xFFF0)
  | .scr => (0x00FB, 0xFFFF)
  | .scl => (0x00FC, 0xFFFF)
  | .exit => (0x00FD, 0xFFFF)
  | .low => (0x00FE, 0xFFFF)
  | .high => (0x00FF, 0xFFFF)
  | .jp _ => (0x1000, 0xF000)
  | .call _ => (0x2000, 0xF000)
  | .seImm _ _ => (0x3000, 0xF000)
  | .sneImm _ _ => (0x4000, 0xF000)
  | .seReg _ _ => (0x5000, 0xF00F)
  | .ldImm _ _ => (0x6000, 0xF000)
  | .addImm _ _ => (0x7000, 0xF000)
  | .ldReg _ _ => (0x8000, 0xF00F)
  | .or _ _ => (0x8001, 0xF00F)
  | .and _ _ => (0x8002, 0xF00F)
  | .xor _ _ => (0x8003, 0xF00F)
  | .add _ _ => (0x8004, 0xF00F)
  | .sub _ _ => (0x8005, 0xF00F)
  | .shr _ _ => (0x8006, 0xF00F)
  | .subn _ _ => (0x8007, 0xF00F)
  | .shl _ _ => (0x800E, 0xF00F)
  | .sneReg _ _ => (0x9000, 0xF00F)
  | .ldI _ => (0xA000, 0xF000)
  | .jpOff _ => (0xB000, 0xF000)
  | .rnd _ _ => (0xC000, 0xF000)
  | .drw _ _ _ => (0xD000, 0xF000)
  | .drwLarge _ _ => (0xD000, 0xF00F)
  | .skp _ => (0xE09E, 0xF0FF)
  | .sknp _ => (0xE0A1, 0xF0FF)
  | .ldVDt _ => (0xF007, 0xF0FF)
  | .ldVK _ => (0xF00A, 0xF0FF)
  | .ldDtV _ => (0xF015, 0xF0FF)
  | .ldStV _ => (0xF018, 0xF0FF)
  | .addI _ => (0xF01E, 0xF0FF)
  | .ldF _ => (0xF029, 0xF0FF)
  | .ldHF _ => (0xF030, 0xF0FF)
  | .ldB _ => (0xF033, 0xF0FF)
  | .ldMemV _ => (0xF055, 0xF0FF)
  | .ldVMem _ => (0xF065, 0xF0FF)
  | .ldRV _ => (0xF075, 0xF0FF)
  | .ldVR _ => (0xF085, 0xF0FF)

/-- The instruction's word matches its own row of the table (30_encoding.md R57). -/
def Statement (i : Instr) : Prop := encode i &&& (row i).2 = (row i).1

/-- A word whose bits are those of a row, bit by bit. -/
theorem of_bits {w mask bits : Word} (h : ∀ k, k < 16 → (w.getLsbD k && mask.getLsbD k) = bits.getLsbD k) :
    w &&& mask = bits :=
  BitVec.eq_of_getLsbD_eq fun k hk => by rw [BitVec.getLsbD_and]; exact h k hk

theorem cls : Statement (.cls) := rfl
theorem ret : Statement (.ret) := rfl
theorem scd (n : Nibble) : Statement (.scd n) := of_bits fun k hk => by
  simp only [encode, row, bit_scroll]
  interval_cases k <;> simp
theorem scr : Statement (.scr) := rfl
theorem scl : Statement (.scl) := rfl
theorem exit : Statement (.exit) := rfl
theorem low : Statement (.low) := rfl
theorem high : Statement (.high) := rfl
theorem jp (nnn : Addr) : Statement (.jp nnn) := of_bits fun k hk => by
  simp only [encode, row, bit_addr]
  interval_cases k <;> simp
theorem call (nnn : Addr) : Statement (.call nnn) := of_bits fun k hk => by
  simp only [encode, row, bit_addr]
  interval_cases k <;> simp
theorem seImm (x : Nibble) (nn : Byte) : Statement (.seImm x nn) := of_bits fun k hk => by
  simp only [encode, row, bit_byte]
  interval_cases k <;> simp
theorem sneImm (x : Nibble) (nn : Byte) : Statement (.sneImm x nn) := of_bits fun k hk => by
  simp only [encode, row, bit_byte]
  interval_cases k <;> simp
theorem seReg (x y : Nibble) : Statement (.seReg x y) := of_bits fun k hk => by
  simp only [encode, row, bit_nibbles]
  interval_cases k <;> simp
theorem ldImm (x : Nibble) (nn : Byte) : Statement (.ldImm x nn) := of_bits fun k hk => by
  simp only [encode, row, bit_byte]
  interval_cases k <;> simp
theorem addImm (x : Nibble) (nn : Byte) : Statement (.addImm x nn) := of_bits fun k hk => by
  simp only [encode, row, bit_byte]
  interval_cases k <;> simp
theorem ldReg (x y : Nibble) : Statement (.ldReg x y) := of_bits fun k hk => by
  simp only [encode, row, bit_nibbles]
  interval_cases k <;> simp
theorem or (x y : Nibble) : Statement (.or x y) := of_bits fun k hk => by
  simp only [encode, row, bit_nibbles]
  interval_cases k <;> simp
theorem and (x y : Nibble) : Statement (.and x y) := of_bits fun k hk => by
  simp only [encode, row, bit_nibbles]
  interval_cases k <;> simp
theorem xor (x y : Nibble) : Statement (.xor x y) := of_bits fun k hk => by
  simp only [encode, row, bit_nibbles]
  interval_cases k <;> simp
theorem add (x y : Nibble) : Statement (.add x y) := of_bits fun k hk => by
  simp only [encode, row, bit_nibbles]
  interval_cases k <;> simp
theorem sub (x y : Nibble) : Statement (.sub x y) := of_bits fun k hk => by
  simp only [encode, row, bit_nibbles]
  interval_cases k <;> simp
theorem shr (x y : Nibble) : Statement (.shr x y) := of_bits fun k hk => by
  simp only [encode, row, bit_nibbles]
  interval_cases k <;> simp
theorem subn (x y : Nibble) : Statement (.subn x y) := of_bits fun k hk => by
  simp only [encode, row, bit_nibbles]
  interval_cases k <;> simp
theorem shl (x y : Nibble) : Statement (.shl x y) := of_bits fun k hk => by
  simp only [encode, row, bit_nibbles]
  interval_cases k <;> simp
theorem sneReg (x y : Nibble) : Statement (.sneReg x y) := of_bits fun k hk => by
  simp only [encode, row, bit_nibbles]
  interval_cases k <;> simp
theorem ldI (nnn : Addr) : Statement (.ldI nnn) := of_bits fun k hk => by
  simp only [encode, row, bit_addr]
  interval_cases k <;> simp
theorem jpOff (nnn : Addr) : Statement (.jpOff nnn) := of_bits fun k hk => by
  simp only [encode, row, bit_addr]
  interval_cases k <;> simp
theorem rnd (x : Nibble) (nn : Byte) : Statement (.rnd x nn) := of_bits fun k hk => by
  simp only [encode, row, bit_byte]
  interval_cases k <;> simp
theorem drw (x y n : Nibble) : Statement (.drw x y n) := of_bits fun k hk => by
  simp only [encode, row, bit_nibbles]
  interval_cases k <;> simp
theorem drwLarge (x y : Nibble) : Statement (.drwLarge x y) := of_bits fun k hk => by
  simp only [encode, row, bit_nibbles]
  interval_cases k <;> simp
theorem skp (x : Nibble) : Statement (.skp x) := of_bits fun k hk => by
  simp only [encode, row, bit_byte]
  interval_cases k <;> simp
theorem sknp (x : Nibble) : Statement (.sknp x) := of_bits fun k hk => by
  simp only [encode, row, bit_byte]
  interval_cases k <;> simp
theorem ldVDt (x : Nibble) : Statement (.ldVDt x) := of_bits fun k hk => by
  simp only [encode, row, bit_byte]
  interval_cases k <;> simp
theorem ldVK (x : Nibble) : Statement (.ldVK x) := of_bits fun k hk => by
  simp only [encode, row, bit_byte]
  interval_cases k <;> simp
theorem ldDtV (x : Nibble) : Statement (.ldDtV x) := of_bits fun k hk => by
  simp only [encode, row, bit_byte]
  interval_cases k <;> simp
theorem ldStV (x : Nibble) : Statement (.ldStV x) := of_bits fun k hk => by
  simp only [encode, row, bit_byte]
  interval_cases k <;> simp
theorem addI (x : Nibble) : Statement (.addI x) := of_bits fun k hk => by
  simp only [encode, row, bit_byte]
  interval_cases k <;> simp
theorem ldF (x : Nibble) : Statement (.ldF x) := of_bits fun k hk => by
  simp only [encode, row, bit_byte]
  interval_cases k <;> simp
theorem ldHF (x : Nibble) : Statement (.ldHF x) := of_bits fun k hk => by
  simp only [encode, row, bit_byte]
  interval_cases k <;> simp
theorem ldB (x : Nibble) : Statement (.ldB x) := of_bits fun k hk => by
  simp only [encode, row, bit_byte]
  interval_cases k <;> simp
theorem ldMemV (x : Nibble) : Statement (.ldMemV x) := of_bits fun k hk => by
  simp only [encode, row, bit_byte]
  interval_cases k <;> simp
theorem ldVMem (x : Nibble) : Statement (.ldVMem x) := of_bits fun k hk => by
  simp only [encode, row, bit_byte]
  interval_cases k <;> simp
theorem ldRV (x : Nibble) : Statement (.ldRV x) := of_bits fun k hk => by
  simp only [encode, row, bit_byte]
  interval_cases k <;> simp
theorem ldVR (x : Nibble) : Statement (.ldVR x) := of_bits fun k hk => by
  simp only [encode, row, bit_byte]
  interval_cases k <;> simp

end Sys2Proof.Laws.RowMatch
end

