-- ==== Sys2Proof/Machine/Asm.lean ====
section
/-! DEFINITION. The assembler's form of an instruction (30_encoding.md R56, R62): a mnemonic and operands, the destination
first. The core itself never sees it. -/

namespace Sys2Proof.Machine

/-- An operand as R62 names it. -/
inductive AsmOperand where
  /-- VX or VY, written `V0` to `VF`. -/
  | reg (x : Nibble)
  /-- NNN, an address. -/
  | addr (nnn : Addr)
  /-- NN, a byte. -/
  | byte (nn : Byte)
  /-- N, a nibble. -/
  | nibble (n : Nibble)
  /-- `I`. -/
  | index
  /-- `[I]`, the memory at I. -/
  | memory
  /-- `DT`. -/
  | delay
  /-- `ST`. -/
  | sound
  /-- `K`, the keypad. -/
  | keypad
  /-- `F`, the font. -/
  | font
  /-- `B`, the decimal digits. -/
  | digits
  /-- `HF`, the large font. -/
  | largeFont
  /-- `R`, the flag store. -/
  | flagStore
  deriving DecidableEq, Repr

/-- The mnemonic of an instruction (R56). -/
def Instr.mnemonic : Instr → String
  | .cls => "CLS"
  | .ret => "RET"
  | .scd _ => "SCD"
  | .scr => "SCR"
  | .scl => "SCL"
  | .exit => "EXIT"
  | .low => "LOW"
  | .high => "HIGH"
  | .jp _ | .jpOff _ => "JP"
  | .call _ => "CALL"
  | .seImm _ _ | .seReg _ _ => "SE"
  | .sneImm _ _ | .sneReg _ _ => "SNE"
  | .ldImm _ _ | .ldReg _ _ | .ldI _ | .ldVDt _ | .ldVK _ | .ldDtV _ | .ldStV _ | .ldF _ | .ldHF _ | .ldB _
  | .ldMemV _ | .ldVMem _ | .ldRV _ | .ldVR _ => "LD"
  | .addImm _ _ | .add _ _ | .addI _ => "ADD"
  | .or _ _ => "OR"
  | .and _ _ => "AND"
  | .xor _ _ => "XOR"
  | .sub _ _ => "SUB"
  | .shr _ _ => "SHR"
  | .subn _ _ => "SUBN"
  | .shl _ _ => "SHL"
  | .rnd _ _ => "RND"
  | .drw _ _ _ | .drwLarge _ _ => "DRW"
  | .skp _ => "SKP"
  | .sknp _ => "SKNP"

/-- The operands of an instruction in a mode: BNNN is `JP V0, NNN` in `Base` mode and `JP VX, NNN` with X = NNN[11:8] in
`Extended` mode; the shifts name VY in both (R62). -/
def Instr.operands (mode : Mode) : Instr → List AsmOperand
  | .cls | .ret | .scr | .scl | .exit | .low | .high => []
  | .scd n => [.nibble n]
  | .jp nnn | .call nnn => [.addr nnn]
  | .jpOff nnn =>
    match mode with
    | .base => [.reg 0x0, .addr nnn]
    | .extended => [.reg (nnn.extractLsb' 8 4), .addr nnn]
  | .seImm x nn | .sneImm x nn | .ldImm x nn | .addImm x nn | .rnd x nn => [.reg x, .byte nn]
  | .seReg x y | .sneReg x y | .ldReg x y | .or x y | .and x y | .xor x y | .add x y | .sub x y | .shr x y
  | .subn x y | .shl x y => [.reg x, .reg y]
  | .ldI nnn => [.index, .addr nnn]
  | .drw x y n => [.reg x, .reg y, .nibble n]
  | .drwLarge x y => [.reg x, .reg y, .nibble 0x0]
  | .skp x | .sknp x => [.reg x]
  | .ldVDt x => [.reg x, .delay]
  | .ldVK x => [.reg x, .keypad]
  | .ldDtV x => [.delay, .reg x]
  | .ldStV x => [.sound, .reg x]
  | .addI x => [.index, .reg x]
  | .ldF x => [.font, .reg x]
  | .ldHF x => [.largeFont, .reg x]
  | .ldB x => [.digits, .reg x]
  | .ldMemV x => [.memory, .reg x]
  | .ldVMem x => [.reg x, .memory]
  | .ldRV x => [.flagStore, .reg x]
  | .ldVR x => [.reg x, .flagStore]

/-- One hex digit. -/
def hexDigit (n : Nibble) : String :=
  ["0", "1", "2", "3", "4", "5", "6", "7", "8", "9", "A", "B", "C", "D", "E", "F"].getD n.toNat ""

/-- The text of an operand (R62): numbers in hex with the lead `0x`. -/
def AsmOperand.text : AsmOperand → String
  | .reg x => "V" ++ hexDigit x
  | .addr a => "0x" ++ hexDigit (a.extractLsb' 8 4) ++ hexDigit (a.extractLsb' 4 4) ++ hexDigit (a.extractLsb' 0 4)
  | .byte b => "0x" ++ hexDigit (b.extractLsb' 4 4) ++ hexDigit (b.extractLsb' 0 4)
  | .nibble n => "0x" ++ hexDigit n
  | .index => "I"
  | .memory => "[I]"
  | .delay => "DT"
  | .sound => "ST"
  | .keypad => "K"
  | .font => "F"
  | .digits => "B"
  | .largeFont => "HF"
  | .flagStore => "R"

/-- An instruction's text: the mnemonic, then the operands separated by commas (R62). -/
def Instr.text (mode : Mode) (i : Instr) : String :=
  match (Instr.operands mode i).map AsmOperand.text with
  | [] => Instr.mnemonic i
  | ops => Instr.mnemonic i ++ " " ++ String.intercalate ", " ops

end Sys2Proof.Machine
end

