-- ==== Sys2Proof/Tests/Slice0.lean ====
section
/-! SUPPORT. The model's own tests. Expected values come from the vectors V-… of spec/95_test_vectors.md, from the examples
in the instruction rules, and, for decoding, from words written out bit by bit from the patterns of 30_encoding.md R56. The
last part holds a witness for every statement with hypotheses. -/

namespace Sys2Proof.Tests

open Sys2Proof Sys2Proof.Machine

/-! ## Helpers -/

def baseCfg : Config := { resetConfig with mode := .base, quirks := .ofMode .base }
def extCfg : Config := resetConfig
def extraCfg : Config := { resetConfig with bigFont := some { base := 0x0A0, data := List.replicate 160 0xFF } }
def skipCfg : Config := { baseCfg with unknownPolicy := .skip }
def logicCfg : Config := { baseCfg with quirks := { Quirks.ofMode .base with logicResetsVf := true } }

/-- The state after INIT with the word at 0x200, the start of every vector. -/
def boot (c : Config) (w : Word) : State := (State.fresh c 0).load [w.extractLsb' 8 8, w.extractLsb' 0 8]

def regs (l : List (Nibble × Byte)) (s : State) : State := l.foldl (fun s p => s.setReg p.1 p.2) s

def press (k : Nat) (s : State) : State := (transact (.keyDown k) s).2

/-- The result is a next state of which `f` holds. -/
def after (r : Result) (f : State → Bool) : Bool :=
  match r with
  | .next t => f t
  | .fault _ => false
  | .refused _ => false

/-- The result is the error `e`. -/
def fails (r : Result) (e : Fault) : Bool :=
  match r with
  | .next _ => false
  | .fault f => decide (f = e)
  | .refused _ => false

/-- How many pixels are on. -/
def onCount (s : State) : Nat := (s.fb.map fun row => row.count true).sum

/-! ## Decoding: at least one word of each row, written out from its pattern -/

theorem test_decode_flow :
    decode .base false 0b0000_0000_1110_1110 = some .ret ∧
    decode .base false 0b0001_0010_0011_0100 = some (.jp 0x234) ∧
    decode .base false 0b0010_0011_0000_0001 = some (.call 0x301) ∧
    decode .base false 0b1011_0011_0000_0010 = some (.jpOff 0x302) ∧
    decode .base false 0b0011_0001_0000_0101 = some (.seImm 0x1 0x05) ∧
    decode .base false 0b0100_0001_0000_0101 = some (.sneImm 0x1 0x05) ∧
    decode .base false 0b0101_0001_0010_0000 = some (.seReg 0x1 0x2) ∧
    decode .base false 0b1001_0001_0010_0000 = some (.sneReg 0x1 0x2) := by decide

theorem test_decode_alu :
    decode .base false 0b0110_1010_0100_0010 = some (.ldImm 0xA 0x42) ∧
    decode .base false 0b0111_0001_0010_0000 = some (.addImm 0x1 0x20) ∧
    decode .base false 0b1000_0001_0010_0000 = some (.ldReg 0x1 0x2) ∧
    decode .base false 0b1000_0001_0010_0001 = some (.or 0x1 0x2) ∧
    decode .base false 0b1000_0001_0010_0010 = some (.and 0x1 0x2) ∧
    decode .base false 0b1000_0001_0010_0011 = some (.xor 0x1 0x2) ∧
    decode .base false 0b1000_0001_0010_0100 = some (.add 0x1 0x2) ∧
    decode .base false 0b1000_0001_0010_0101 = some (.sub 0x1 0x2) ∧
    decode .base false 0b1000_0001_0010_0110 = some (.shr 0x1 0x2) ∧
    decode .base false 0b1000_0001_0010_0111 = some (.subn 0x1 0x2) ∧
    decode .base false 0b1000_0001_0010_1110 = some (.shl 0x1 0x2) ∧
    decode .base false 0b1100_0001_0000_1111 = some (.rnd 0x1 0x0F) := by decide

theorem test_decode_index :
    decode .base false 0b1010_0010_1111_0000 = some (.ldI 0x2F0) ∧
    decode .base false 0b1111_0010_0001_1110 = some (.addI 0x2) ∧
    decode .base false 0b1111_0011_0010_1001 = some (.ldF 0x3) ∧
    decode .base false 0b1111_0001_0011_0011 = some (.ldB 0x1) ∧
    decode .base false 0b1111_0010_0101_0101 = some (.ldMemV 0x2) ∧
    decode .base false 0b1111_1111_0110_0101 = some (.ldVMem 0xF) := by decide

theorem test_decode_display :
    decode .base false 0b0000_0000_1110_0000 = some .cls ∧
    decode .base false 0b1101_0000_0001_0101 = some (.drw 0x0 0x1 0x5) ∧
    decode .base false 0b1101_0000_0001_0000 = some (.drw 0x0 0x1 0x0) := by decide

theorem test_decode_timers_keypad :
    decode .base false 0b1111_0101_0000_0111 = some (.ldVDt 0x5) ∧
    decode .base false 0b1111_0101_0001_0101 = some (.ldDtV 0x5) ∧
    decode .base false 0b1111_0101_0001_1000 = some (.ldStV 0x5) ∧
    decode .base false 0b1110_0001_1001_1110 = some (.skp 0x1) ∧
    decode .base false 0b1110_0001_1010_0001 = some (.sknp 0x1) ∧
    decode .base false 0b1111_0011_0000_1010 = some (.ldVK 0x3) := by decide

theorem test_decode_superchip :
    decode .extended false 0b0000_0000_1100_0011 = some (.scd 0x3) ∧
    decode .extended false 0b0000_0000_1111_1110 = some .low ∧
    decode .extended false 0b0000_0000_1111_1111 = some .high ∧
    decode .extended false 0b1101_0000_0001_0000 = some (.drwLarge 0x0 0x1) ∧
    decode .extended false 0b1111_0011_0111_0101 = some (.ldRV 0x3) ∧
    decode .extended false 0b1111_0011_1000_0101 = some (.ldVR 0x3) ∧
    decode .extended true 0b0000_0000_1111_1011 = some .scr ∧
    decode .extended true 0b0000_0000_1111_1100 = some .scl ∧
    decode .extended true 0b0000_0000_1111_1101 = some .exit ∧
    decode .extended true 0b1111_0001_0011_0000 = some (.ldHF 0x1) := by decide

/-- Unknown words (V-A23, V-F16, V-T12, V-X1, V-X2) and the gated rows (V-S10 to V-S13). -/
theorem test_decode_unknown :
    decode .base false 0x8128 = none ∧ decode .base false 0x5121 = none ∧ decode .base false 0xE19F = none ∧
    decode .base false 0x0000 = none ∧ decode .base false 0x0123 = none ∧
    decode .base false 0x00FE = none ∧ decode .base false 0xF175 = none ∧
    decode .extended false 0x00FB = none ∧ decode .extended false 0xF030 = none := by decide

/-- Bytes: the first is the high one, the rest stays, and a short list is refused by name. -/
theorem test_decode_bytes :
    decodeBytes .base false [0x6A, 0x42, 0x99] = .ok (.ldImm 0xA 0x42, [0x99]) ∧
    decodeBytes .base false [0x81, 0x28] = .error (.unknown 0x8128) ∧
    decodeBytes .base false [0x6A] = .error (.truncated 1) := by decide

/-- Words numbered as the opcode table numbers them. -/
theorem test_decodeTableWord :
    decodeTableWord 16 0x00E0 = some .cls ∧ decodeTableWord 16 0x6A42 = some (.ldImm 0xA 0x42) ∧
    decodeTableWord 16 0xD010 = some (.drwLarge 0x0 0x1) ∧ decodeTableWord 16 0x00FB = some .scr ∧
    decodeTableWord 16 0xF130 = some (.ldHF 0x1) ∧ decodeTableWord 16 0x0000 = none := by decide

/-- The assembler's form of three lines of the programs in spec/95_test_vectors.md, and of BNNN in both modes. -/
theorem test_asm :
    (Instr.mnemonic (.ldVMem 0x2) = "LD" ∧ Instr.operands .base (.ldVMem 0x2) = [.reg 0x2, .memory]) ∧
    (Instr.mnemonic (.drw 0x1 0x2 0x5) = "DRW" ∧ Instr.operands .base (.drw 0x1 0x2 0x5) = [.reg 0x1, .reg 0x2, .nibble 0x5]) ∧
    Instr.text .base (.ldImm 0xA 0x9C) = "LD VA, 0x9C" ∧
    Instr.text .base (.jpOff 0x300) = "JP V0, 0x300" ∧ Instr.text .extended (.jpOff 0x300) = "JP V3, 0x300" := by decide

/-! ## WellFormed: an ill-formed term for each check -/

theorem test_wellFormed_refuses_mode :
    Instr.wellFormed .base true (.scd 1) = false ∧ Instr.wellFormed .base true .low = false ∧
    Instr.wellFormed .base true .high = false ∧ Instr.wellFormed .base true (.drwLarge 0 0) = false ∧
    Instr.wellFormed .base true (.ldRV 0) = false ∧ Instr.wellFormed .base true (.ldVR 0) = false ∧
    Instr.wellFormed .base true .scr = false ∧ Instr.wellFormed .base true (.ldHF 0) = false := by decide

theorem test_wellFormed_refuses_extra :
    Instr.wellFormed .extended false .scr = false ∧ Instr.wellFormed .extended false .scl = false ∧
    Instr.wellFormed .extended false .exit = false ∧ Instr.wellFormed .extended false (.ldHF 0) = false := by decide

theorem test_wellFormed_refuses_empty_draw :
    Instr.wellFormed .extended true (.drw 0 0 0) = false ∧ Instr.wellFormed .base true (.drw 0 0 0) = true := by decide

theorem test_config_refuses_font : Config.wf { baseCfg with fontBase := 0x1B1 } = false := by decide

set_option maxRecDepth 4000 in
/-- A large font of the wrong length, one that leaves the reserved region, and one over the font table. -/
theorem test_config_refuses_bigFont :
    Config.wf { extraCfg with bigFont := some { base := 0x0A0, data := [] } } = false ∧
    Config.wf { extraCfg with bigFont := some { base := 0x161, data := List.replicate 160 0 } } = false ∧
    Config.wf { extraCfg with bigFont := some { base := 0x09F, data := List.replicate 160 0 } } = false ∧
    extraCfg.wf = true := by decide

/-! ## Control flow -/

/-- V-F1, V-F2. -/
theorem test_ret :
    after (step { boot baseCfg 0x00EE with stack := [0x0204] }) (fun t => t.pc == 0x204 && t.stack.isEmpty) = true ∧
    fails (step (boot baseCfg 0x00EE)) (.stackUnderflow 0x200) = true := by decide

/-- V-F3. -/
theorem test_jp : after (step (boot baseCfg 0x1234)) (fun t => t.pc == 0x234) = true := by decide

/-- V-F5, V-F6. -/
theorem test_call :
    after (step (boot baseCfg 0x2300)) (fun t => t.pc == 0x300 && t.stack == [0x0202]) = true ∧
    fails (step { boot baseCfg 0x2300 with stack := List.replicate 16 0x202 }) (.stackOverflow 0x200) = true := by decide

/-- V-F7, V-F9. -/
theorem test_jpOff :
    after (step (regs [(0, 0x10), (3, 0x55)] (boot baseCfg 0xB300))) (fun t => t.pc == 0x310) = true ∧
    after (step (regs [(0, 0x10), (3, 0x55)] (boot extCfg 0xB300))) (fun t => t.pc == 0x355) = true ∧
    after (step (regs [(0, 0xFF)] (boot baseCfg 0xBFFF))) (fun t => t.pc == 0x10FE) = true := by decide

/-- V-F10, V-F11, V-F12, V-F13. -/
theorem test_skip_imm :
    after (step (regs [(1, 0x05)] (boot baseCfg 0x3105))) (fun t => t.pc == 0x204) = true ∧
    after (step (regs [(1, 0x06)] (boot baseCfg 0x3105))) (fun t => t.pc == 0x202) = true ∧
    after (step (regs [(1, 0x05)] (boot baseCfg 0x4105))) (fun t => t.pc == 0x202) = true ∧
    after (step (regs [(1, 0x06)] (boot baseCfg 0x4105))) (fun t => t.pc == 0x204) = true := by decide

/-- V-F14, V-F15, V-F17, V-F18. -/
theorem test_skip_reg :
    after (step (regs [(1, 0x33), (2, 0x33)] (boot baseCfg 0x5120))) (fun t => t.pc == 0x204) = true ∧
    after (step (regs [(1, 0x33)] (boot baseCfg 0x5120))) (fun t => t.pc == 0x202) = true ∧
    after (step (regs [(1, 0x01), (2, 0x02)] (boot baseCfg 0x9120))) (fun t => t.pc == 0x204) = true ∧
    after (step (regs [(1, 0x01)] (boot baseCfg 0x9110))) (fun t => t.pc == 0x202) = true := by decide

/-! ## Registers, arithmetic and logic -/

/-- V-A1, V-A4, and V-A2 and V-A3: no carry flag. -/
theorem test_loads_and_addImm :
    after (step (boot baseCfg 0x6A42)) (fun t => t.reg 0xA == 0x42 && t.pc == 0x202) = true ∧
    after (step (regs [(2, 0x9C)] (boot baseCfg 0x8120))) (fun t => t.reg 1 == 0x9C) = true ∧
    after (step (regs [(1, 0xF0), (15, 0x55)] (boot baseCfg 0x7120)))
      (fun t => t.reg 1 == 0x10 && t.reg 15 == 0x55) = true ∧
    after (step (regs [(1, 0xFF), (15, 0x55)] (boot baseCfg 0x7101)))
      (fun t => t.reg 1 == 0x00 && t.reg 15 == 0x55) = true := by decide

/-- V-A10, V-A11, V-A12. -/
theorem test_logic :
    after (step (regs [(1, 0xF0), (2, 0x0F), (15, 7)] (boot baseCfg 0x8121)))
      (fun t => t.reg 1 == 0xFF && t.reg 15 == 7) = true ∧
    after (step (regs [(1, 0xF0), (2, 0x3C), (15, 7)] (boot baseCfg 0x8122)))
      (fun t => t.reg 1 == 0x30 && t.reg 15 == 7) = true ∧
    after (step (regs [(1, 0xF0), (2, 0x3C), (15, 7)] (boot baseCfg 0x8123)))
      (fun t => t.reg 1 == 0xCC && t.reg 15 == 7) = true := by decide

/-- R79 to R81 with `logic_resets_vf`: VF is 0 at the end, also as the destination. -/
theorem test_logic_resets_vf :
    after (step (regs [(1, 0xF0), (2, 0x0F), (15, 7)] (boot logicCfg 0x8121)))
      (fun t => t.reg 1 == 0xFF && t.reg 15 == 0) = true ∧
    after (step (regs [(2, 0x0F), (15, 0xFF)] (boot logicCfg 0x8F22))) (fun t => t.reg 15 == 0) = true ∧
    after (step (regs [(2, 0x0F), (15, 0xFF)] (boot logicCfg 0x8F23))) (fun t => t.reg 15 == 0) = true := by decide

/-- V-A5, V-A6, V-A7, V-A8, V-A9. -/
theorem test_add :
    after (step (regs [(1, 0xC8), (2, 0x64)] (boot baseCfg 0x8124)))
      (fun t => t.reg 1 == 0x2C && t.reg 15 == 1) = true ∧
    after (step (regs [(1, 0x80), (2, 0x7F)] (boot baseCfg 0x8124)))
      (fun t => t.reg 1 == 0xFF && t.reg 15 == 0) = true ∧
    after (step (regs [(15, 0x10), (1, 0xF5)] (boot baseCfg 0x8F14))) (fun t => t.reg 15 == 1) = true ∧
    after (step (regs [(15, 0xFF), (1, 0x01)] (boot baseCfg 0x81F4)))
      (fun t => t.reg 1 == 0 && t.reg 15 == 1) = true := by decide

/-- V-A14, V-A15, V-A16, V-A17. -/
theorem test_sub :
    after (step (regs [(1, 0x07), (2, 0x05)] (boot baseCfg 0x8125)))
      (fun t => t.reg 1 == 0x02 && t.reg 15 == 1) = true ∧
    after (step (regs [(1, 0x05), (2, 0x07)] (boot baseCfg 0x8125)))
      (fun t => t.reg 1 == 0xFE && t.reg 15 == 0) = true ∧
    after (step (regs [(1, 0x05), (2, 0x05)] (boot baseCfg 0x8125)))
      (fun t => t.reg 1 == 0x00 && t.reg 15 == 1) = true ∧
    after (step (regs [(15, 0x33)] (boot baseCfg 0x8FF5))) (fun t => t.reg 15 == 1) = true := by decide

/-- V-A18, V-A19. -/
theorem test_subn :
    after (step (regs [(1, 0x05), (2, 0x07)] (boot baseCfg 0x8127)))
      (fun t => t.reg 1 == 0x02 && t.reg 15 == 1) = true ∧
    after (step (regs [(1, 0x07), (2, 0x05)] (boot baseCfg 0x8127)))
      (fun t => t.reg 1 == 0xFE && t.reg 15 == 0) = true := by decide

/-- V-A20, V-A21. -/
theorem test_shr :
    after (step (regs [(1, 0x04), (2, 0x05)] (boot baseCfg 0x8126)))
      (fun t => t.reg 1 == 0x02 && t.reg 2 == 0x05 && t.reg 15 == 1) = true ∧
    after (step (regs [(1, 0x04), (2, 0x05)] (boot extCfg 0x8126)))
      (fun t => t.reg 1 == 0x02 && t.reg 15 == 0) = true ∧
    after (step (regs [(2, 0x02)] (boot baseCfg 0x8F26))) (fun t => t.reg 15 == 0) = true := by decide

/-- V-A22. -/
theorem test_shl :
    after (step (regs [(1, 0x40), (2, 0x81)] (boot baseCfg 0x812E)))
      (fun t => t.reg 1 == 0x02 && t.reg 15 == 1) = true ∧
    after (step (regs [(1, 0x40), (2, 0x81)] (boot extCfg 0x812E)))
      (fun t => t.reg 1 == 0x80 && t.reg 15 == 0) = true := by decide

/-- V-A25: the generator advances. The result's value is 0 whatever byte was drawn. -/
theorem test_rnd :
    after (step (boot baseCfg 0xC100)) (fun t => t.rng.draws == 1 && t.rng.seed == 0 && t.pc == 0x202) = true := by decide

theorem test_rnd_masked_by_zero (s : State) : ∃ t, exec (.rnd 1 0x00) s = .next t ∧ t.reg 1 = 0x00 :=
  ⟨_, rfl, by simp⟩

/-! ## Index register and memory -/

/-- V-M1, V-M2, V-M3, V-M4. -/
theorem test_index :
    after (step (boot baseCfg 0xA2F0)) (fun t => t.i == 0x02F0) = true ∧
    after (step (regs [(2, 0x10)] { boot baseCfg 0xF21E with i := 0x300 })) (fun t => t.i == 0x310) = true ∧
    after (step (regs [(2, 1), (15, 9)] { boot baseCfg 0xF21E with i := 0xFFFF }))
      (fun t => t.i == 0 && t.reg 15 == 9) = true ∧
    after (step (regs [(2, 1), (15, 9)] { boot baseCfg 0xF21E with i := 0x0FFF }))
      (fun t => t.i == 0x1000 && t.reg 15 == 9) = true := by decide

/-- V-M5, V-M6. -/
theorem test_ldF :
    after (step (regs [(3, 0x0A)] (boot baseCfg 0xF329))) (fun t => t.i == 0x082) = true ∧
    after (step (regs [(3, 0x1A)] (boot baseCfg 0xF329))) (fun t => t.i == 0x082) = true := by decide

/-- The example of R118. -/
theorem test_ldHF : after (step (regs [(1, 0x02)] (boot extraCfg 0xF130))) (fun t => t.i == 0x0B4) = true := by decide

/-- V-M7, V-M8, V-M10. -/
theorem test_ldB :
    after (step (regs [(1, 156)] { boot baseCfg 0xF133 with i := 0x300 })) (fun t =>
      t.byteAt 0x300 == 1 && t.byteAt 0x301 == 5 && t.byteAt 0x302 == 6 && t.i == 0x300) = true ∧
    after (step (regs [(1, 255)] { boot baseCfg 0xF133 with i := 0x300 })) (fun t =>
      t.byteAt 0x300 == 2 && t.byteAt 0x301 == 5 && t.byteAt 0x302 == 5) = true ∧
    fails (step (regs [(1, 156)] { boot baseCfg 0xF133 with i := 0xFFE })) (.outOfBoundsAccess 0x1000) = true := by decide

/-- V-M11, V-M12, V-M13. -/
theorem test_ldMemV :
    after (step (regs [(0, 1), (1, 2), (2, 3)] { boot baseCfg 0xF255 with i := 0x400 })) (fun t =>
      t.byteAt 0x400 == 1 && t.byteAt 0x401 == 2 && t.byteAt 0x402 == 3 && t.byteAt 0x403 == 0 && t.i == 0x403) = true ∧
    after (step (regs [(0, 1), (1, 2), (2, 3)] { boot extCfg 0xF255 with i := 0x400 }))
      (fun t => t.byteAt 0x402 == 3 && t.i == 0x400) = true ∧
    fails (step (regs [(0, 1), (1, 2), (2, 3)] { boot baseCfg 0xF255 with i := 0xFFE }))
      (.outOfBoundsAccess 0x1000) = true ∧
    after (step (regs [(0, 0x77)] { boot baseCfg 0xF055 with i := 0xFFF }))
      (fun t => t.byteAt 0xFFF == 0x77 && t.i == 0x1000) = true := by decide

/-- V-M14 (three of its sixteen registers), V-M15, V-M16. -/
theorem test_ldVMem :
    after (step { (boot baseCfg 0xFF65).putBytesAt 0x400 ((List.range 16).map fun k => BitVec.ofNat 8 (0x10 + k)) with
      i := 0x400 }) (fun t => t.reg 0 == 0x10 && t.reg 1 == 0x11 && t.reg 15 == 0x1F && t.i == 0x410) = true ∧
    fails (step { boot baseCfg 0xF165 with i := 0xFFF }) (.outOfBoundsAccess 0x1000) = true ∧
    after (step { boot baseCfg 0xF065 with i := 0x050 }) (fun t => t.reg 0 == 0xF0 && t.i == 0x051) = true := by decide

/-! ## Display -/

/-- V-D1, on a grid with one pixel on. -/
theorem test_cls :
    after (step { boot baseCfg 0x00E0 with fb := (Grid.blank .lo).toggle 5 3 })
      (fun t => onCount t == 0 && t.fb.length == 32) = true := by decide

/-- V-D2: glyph 0 at the origin. -/
theorem test_drw :
    after (step { boot baseCfg 0xD015 with i := 0x050 }) (fun t =>
      onCount t == 14 && t.pixel 0 0 && t.pixel 3 0 && !t.pixel 4 0 && t.pixel 0 1 && !t.pixel 1 1 && t.pixel 3 3 &&
        t.pixel 2 4 && t.reg 15 == 0) = true := by decide

/-- V-D4, V-D7. -/
theorem test_drw_wraps_and_fails :
    after (step (regs [(0, 62), (1, 30)] { boot baseCfg 0xD015 with i := 0x050 })) (fun t =>
      onCount t == 14 && t.pixel 62 30 && t.pixel 1 30 && t.pixel 1 31 && t.pixel 62 0 && !t.pixel 63 0 && t.pixel 0 2 &&
        t.reg 15 == 0) = true ∧
    fails (step (regs [(15, 7)] { boot baseCfg 0xD015 with i := 0xFFD })) (.outOfBoundsAccess 0x1000) = true := by decide

/-- V-D3: the second of two draws; V-D6: N = 0 in `Base` mode clears VF, also with I out of range. -/
theorem test_drw_twice_and_empty :
    after (step { boot baseCfg 0xD015 with i := 0x050, fb := (drawSprite .lo (.blank .lo) 0 0
      ([0xF0, 0x90, 0x90, 0x90, 0xF0] : List Byte)).1 }) (fun t => onCount t == 0 && t.reg 15 == 1) = true ∧
    after (step (regs [(15, 1)] { boot baseCfg 0xD010 with i := 0xFFFF }))
      (fun t => onCount t == 0 && t.reg 15 == 0) = true := by decide

set_option maxRecDepth 4000 in
/-- V-S6 (its first draw), V-S7. -/
theorem test_drwLarge :
    after (step (regs [(0, 60), (1, 30)]
      { (boot extCfg 0xD010).putBytesAt 0x300 (List.flatten (List.replicate 16 [0x80, 0x01])) with
        i := 0x300, res := .lo, fb := .blank .lo })) (fun t =>
        onCount t == 32 && t.pixel 60 30 && t.pixel 11 31 && t.pixel 60 13 && !t.pixel 60 14 && t.reg 15 == 0) = true ∧
    fails (step { boot extCfg 0xD010 with i := 0xFF0 }) (.outOfBoundsAccess 0x1000) = true := by decide

set_option maxRecDepth 4000 in
/-- V-S1, and the examples of R115 and R116, in the small grid. -/
theorem test_scrolls :
    after (step { boot extCfg 0x00C3 with res := .lo, fb := (Grid.blank .lo).toggle 5 0 })
      (fun t => onCount t == 1 && t.pixel 5 3) = true ∧
    after (step { boot extraCfg 0x00FB with res := .lo, fb := (Grid.blank .lo).toggle 0 0 })
      (fun t => onCount t == 1 && t.pixel 4 0) = true ∧
    after (step { boot extraCfg 0x00FC with res := .lo, fb := (Grid.blank .lo).toggle 4 0 })
      (fun t => onCount t == 1 && t.pixel 0 0) = true := by decide

/-- V-S3, V-S4. -/
theorem test_resolution :
    after (step { boot extCfg 0x00FE with fb := (Grid.blank .hi).toggle 5 0 })
      (fun t => t.res == .lo && onCount t == 0 && t.fb.length == 32) = true ∧
    after (step { boot extCfg 0x00FF with res := .lo, fb := (Grid.blank .lo).toggle 5 0 })
      (fun t => t.res == .hi && onCount t == 0 && t.fb.length == 64) = true := by decide

/-! ## Timers, keys, control states, flag store, transactions -/

/-- V-T1, V-T2, V-T3. -/
theorem test_timers :
    after (step { boot baseCfg 0xF507 with dt := 0x2A }) (fun t => t.reg 5 == 0x2A) = true ∧
    after (step (regs [(5, 0x3C)] (boot baseCfg 0xF515))) (fun t => t.dt == 0x3C) = true ∧
    after (step (regs [(5, 0x01)] (boot baseCfg 0xF518)))
      (fun t => t.st == 1 && t.soundActive && t.tick.st == 0 && !t.tick.soundActive) = true := by decide

/-- V-T4. -/
theorem test_tick :
    (State.tick { boot baseCfg 0 with dt := 0, st := 5 }).dt = 0 ∧
    (State.tick { boot baseCfg 0 with dt := 0, st := 5 }).st = 4 := by decide

/-- V-T5, V-T6, V-T7, V-T8. -/
theorem test_key_skips :
    after (step (press 4 (regs [(1, 0x04)] (boot baseCfg 0xE19E)))) (fun t => t.pc == 0x204) = true ∧
    after (step (press 3 (regs [(1, 0x13)] (boot baseCfg 0xE19E)))) (fun t => t.pc == 0x204) = true ∧
    after (step (regs [(1, 0x04)] (boot baseCfg 0xE1A1))) (fun t => t.pc == 0x204) = true ∧
    after (step (press 4 (regs [(1, 0x04)] (boot baseCfg 0xE1A1)))) (fun t => t.pc == 0x202) = true := by decide

/-- V-T9; V-T11: the lowest of two keys, and the next word runs in the same STEP. -/
theorem test_key_wait :
    after (step (boot baseCfg 0xF30A)) (fun t => t.pc == 0x202 && t.ctrl == .waitingForKey 3) = true ∧
    after (step (press 12 (press 9 { boot baseCfg 0x6A42 with ctrl := .waitingForKey 3 }))) (fun t =>
      t.reg 3 == 9 && t.ctrl == .running && t.reg 0xA == 0x42 && t.pc == 0x202) = true := by decide

/-- V-S8, V-S9. -/
theorem test_flag_store :
    after (step (regs [(0, 1), (1, 2), (2, 3), (3, 4), (4, 5)] (boot extCfg 0xF375)))
      (fun t => t.flags.toList.take 5 == [1, 2, 3, 4, 0] && t.i == 0) = true ∧
    after (step { boot extCfg 0xF385 with flags := (Vector.replicate 16 0x09).set 3 0x04 })
      (fun t => t.reg 0 == 9 && t.reg 3 == 4 && t.reg 4 == 0) = true := by decide

/-- The example of R117. -/
theorem test_exit :
    after (step { (boot extraCfg 0).putBytesAt 0x300 [0x00, 0xFD] with pc := 0x300 })
      (fun t => t.pc == 0x302 && t.ctrl == .halted) = true := by decide

/-- V-X1, V-X3, V-X4, V-X5. -/
theorem test_step :
    fails (step (boot baseCfg 0x0000)) (.unknownOpcode 0x0000 0x200) = true ∧
    after (step (boot skipCfg 0x0000)) (fun t => t.pc == 0x202) = true ∧
    after (step { (boot baseCfg 0).putBytesAt 0xFFE [0x00, 0xE0] with pc := 0xFFE }) (fun t => t.pc == 0x1000) = true ∧
    fails (step { boot baseCfg 0 with pc := 0xFFF }) (.outOfBoundsAccess 0x1000) = true := by decide

/-- T2 of spec/95_test_vectors.md: the longest program loads and one byte more does not. -/
theorem test_rom_too_large :
    initCore baseCfg 0 (List.replicate 3585 0) = .error (.romTooLarge 3585) ∧
    ∃ t, initCore baseCfg 0 (List.replicate 3584 0) = .ok t := by
  constructor
  · rcases initCore_cases baseCfg 0 (List.replicate 3585 0) with ⟨-, h⟩ | ⟨h, -⟩
    · rwa [List.length_replicate] at h
    · rw [List.length_replicate] at h; exact absurd h (by decide)
  · rcases initCore_cases baseCfg 0 (List.replicate 3584 0) with ⟨h, -⟩ | ⟨-, h⟩
    · rw [List.length_replicate] at h; exact absurd h (by decide)
    · exact ⟨_, h⟩

/-- `withFetchWord` makes the very next step from reset run the word, in whatever configuration the word needs. -/
theorem test_withFetchWord :
    after (step (State.reset.withFetchWord 16 0x6A42)) (fun t => t.reg 0xA == 0x42 && t.pc == 0x202) = true ∧
    after (step (State.reset.withFetchWord 16 0x00FD)) (fun t => t.ctrl == .halted) = true ∧
    after (step (State.reset.withFetchWord 16 0xF130)) (fun t => t.pc == 0x202) = true ∧
    after (step (State.reset.withFetchWord 16 0x00FB)) (fun t => t.pc == 0x202) = true := by decide

/-- One word of each row of the opcode table decodes, and runs as the first instruction after reset; RET is the one that
fails, on its empty stack. -/
theorem test_every_row_runs_from_reset :
    (([0x00E0, 0x00C1, 0x00FB, 0x00FC, 0x00FD, 0x00FE, 0x00FF, 0x1234, 0x2300, 0x3105, 0x4105, 0x5120, 0x6A42, 0x7120,
      0x8120, 0x8121, 0x8122, 0x8123, 0x8124, 0x8125, 0x8126, 0x8127] ++
      [0x812E, 0x9120, 0xA2F0, 0xB300, 0xC10F, 0xD011, 0xD010, 0xE19E, 0xE1A1, 0xF507, 0xF30A, 0xF515, 0xF518, 0xF21E,
      0xF329, 0xF130, 0xF133, 0xF255, 0xF165, 0xF375, 0xF385] : List Nat).all fun w =>
        (decodeTableWord 16 w).isSome && after (step (State.reset.withFetchWord 16 w)) fun _ => true) = true ∧
    fails (step (State.reset.withFetchWord 16 0x00EE)) (.stackUnderflow 0x200) = true := by decide

/-! ## Witnesses: states and operands that meet the hypotheses of a statement, all together -/

theorem base_memWf (w : Word) : (boot baseCfg w).MemWf :=
  memWf_putBytesAt _ (fresh_memWf _ _) 0x200 _ (show 0x200 + 2 ≤ 0x1000 by decide)

theorem fresh_inv : (State.fresh baseCfg 7).Inv where
  cfg := show baseCfg.wf = true by decide
  mem := fresh_memWf _ _
  flow := ⟨Nat.zero_le _, fun _ h => absurd h List.not_mem_nil, show (0x200 : Nat) ≤ 0x10FE by decide⟩
  screen := ⟨fits_blank _, fun _ => rfl⟩
  ctrl := fun h => by cases h

theorem witness_InitLeavesRegisters : (List.replicate 3584 (0x00 : Byte)).length ≤ 3584 := by
  rw [List.length_replicate]

/-- A configuration with a large font and one without; a program of the greatest length and one byte more; an address
outside both fonts. -/
theorem witness_InitLeavesMemory :
    baseCfg.wf = true ∧ Config.wf { extraCfg with bigFont := some { base := 0x160, data := List.replicate 160 0 } } = true ∧
    (List.replicate 3584 (0x00 : Byte)).length ≤ 3584 ∧ 3584 < (List.replicate 3585 (0x00 : Byte)).length ∧
    (0x04F < 0x200 ∧ 0x04F < baseCfg.fontBase.toNat) ∧ (0x0A0 < 0x200 ∧ baseCfg.fontBase.toNat + 80 ≤ 0x0A0) := by
  refine ⟨by decide, ?_, by rw [List.length_replicate], by rw [List.length_replicate]; decide, by decide, by decide⟩
  set_option maxRecDepth 4000 in decide

theorem witness_EmptyProgramFailsAtFirstStep :
    baseCfg.unknownPolicy = .fail ∧ baseCfg.wf = true ∧ initCore baseCfg 0 [] = .ok (State.fresh baseCfg 0) :=
  ⟨rfl, by decide, rfl⟩

theorem witness_DecodeOfEncode :
    Instr.wellFormed .base false (.drw 0 0 0) = true ∧ Instr.wellFormed .extended false (.drwLarge 0 0) = true ∧
    Instr.wellFormed .extended true (.ldHF 0xF) = true := by decide

theorem witness_EncodeOfDecode : decode .extended true 0x00FD = some .exit := by decide

theorem witness_DecoderConsumesTwoBytes :
    decode .base false ((0x6A#8 : Byte) ++ (0x42#8 : Byte)) = some (.ldImm 0xA 0x42) ∧
    decode .base false ((0x00#8 : Byte) ++ (0x00#8 : Byte)) = none ∧
    decodeBytes .base false (0x6A :: 0x42 :: [0x01]) = .ok (.ldImm 0xA 0x42, [0x01]) := by decide

/-- A running core at the last address a fetch can start from (V-X4). -/
def atTop : State := { (boot baseCfg 0).putBytesAt 0xFFE [0x00, 0xE0] with pc := 0xFFE }

theorem witness_StepRunsDecodedInstruction :
    atTop.ctrl = .running ∧ atTop.pc.toNat ≤ 0xFFE ∧
    decode atTop.cfg.mode atTop.cfg.schipExtra (atTop.byteAt atTop.pc.toNat ++ atTop.byteAt (atTop.pc.toNat + 1)) =
      some .cls := by decide

/-- The fetch at its last address, and one and two addresses above it. -/
theorem witness_FetchReadsWordOrFails :
    atTop.pc.toNat ≤ 0xFFE ∧ atTop.ctrl = .running ∧
    0xFFE < (State.pc { atTop with pc := 0xFFF }).toNat ∧ 0xFFE < (State.pc { atTop with pc := 0x1000 }).toNat := by decide

/-- A running core with the policy `Fail`, and a waiting one with a key pressed and the policy `Skip`. -/
theorem witness_UnknownWordFailsOrIsSkipped :
    ((boot baseCfg 0).poll = some (boot baseCfg 0) ∧ (boot baseCfg 0).pc.toNat ≤ 0xFFE ∧
      decode .base false ((boot baseCfg 0).byteAt 0x200 ++ (boot baseCfg 0).byteAt 0x201) = none ∧
      baseCfg.unknownPolicy = .fail ∧ (boot baseCfg 0).ctrl = .running) ∧
    ((press 9 { boot skipCfg 0 with ctrl := .waitingForKey 3 }).poll.isSome = true ∧
      (press 9 { boot skipCfg 0 with ctrl := .waitingForKey 3 }).ctrl = .waitingForKey 3 ∧
      decode .base false ((boot skipCfg 0).byteAt 0x200 ++ (boot skipCfg 0).byteAt 0x201) = none ∧
      skipCfg.unknownPolicy = .skip) := by
  refine ⟨⟨rfl, by decide, by decide, rfl, rfl⟩, by decide, by decide, by decide, rfl⟩

/-- No key, and the keys 0, 9 and 15 as the lowest pressed one. -/
theorem witness_KeyWaitPoll :
    let s := { boot baseCfg 0x00E0 with ctrl := .waitingForKey 3 }
    (s.ctrl = .waitingForKey 3 ∧ ∀ k, s.key k = false) ∧
    ((press 0 s).key 0 = true ∧ ∀ j : Nibble, j.toNat < (0 : Nibble).toNat → (press 0 s).key j = false) ∧
    ((press 12 (press 9 s)).key 9 = true ∧ ∀ j : Nibble, j.toNat < (9 : Nibble).toNat → (press 12 (press 9 s)).key j = false) ∧
    ((press 15 s).key 15 = true ∧ ∀ j : Nibble, j.toNat < (15 : Nibble).toNat → (press 15 s).key j = false) := by decide

/-- Each of the errors is some STEP's. -/
theorem witness_StepErrorsHaveTheirCause :
    fails (step (boot baseCfg 0x0000)) (.unknownOpcode 0x0000 0x200) = true ∧
    fails (step { boot baseCfg 0x2300 with stack := List.replicate 16 0 }) (.stackOverflow 0x200) = true ∧
    fails (step (boot baseCfg 0x00EE)) (.stackUnderflow 0x200) = true ∧
    fails (step { boot baseCfg 0 with pc := 0x10FE }) (.outOfBoundsAccess 0x10FE) = true ∧
    fails (step { boot baseCfg 0xD01F with i := 0xFF2 }) (.outOfBoundsAccess 0x1000) = true ∧
    fails (step { boot extCfg 0xD010 with i := 0xFE1 }) (.outOfBoundsAccess 0x1000) = true ∧
    fails (step { boot baseCfg 0xF033 with i := 0xFFE }) (.outOfBoundsAccess 0x1000) = true ∧
    fails (step { boot baseCfg 0xF155 with i := 0xFFF }) (.outOfBoundsAccess 0x1000) = true ∧
    fails (step { boot baseCfg 0xF165 with i := 0xFFFF }) (.outOfBoundsAccess 0xFFFF) = true := by decide

theorem witness_FailedStepKeepsState :
    transact .step (boot baseCfg 0) = (.err (.unknownOpcode 0x0000 0x200), boot baseCfg 0) := by decide

/-- A state that meets the invariant and whose STEP succeeds: key wait, no key pressed. -/
theorem witness_StepPreservesInvariant :
    (State.setCtrl (.fresh baseCfg 7) (.waitingForKey 3)).Inv ∧
    step (State.setCtrl (.fresh baseCfg 7) (.waitingForKey 3)) = .next (State.setCtrl (.fresh baseCfg 7) (.waitingForKey 3)) :=
  ⟨{ cfg := fresh_inv.cfg, mem := fresh_inv.mem, flow := fresh_inv.flow, screen := fresh_inv.screen,
     ctrl := fun h => by cases h }, rfl⟩

theorem witness_TransactionsPreserveInvariant : (State.fresh baseCfg 7).Inv := fresh_inv

theorem witness_ReachableStatesMeetInvariant : Reachable (State.fresh baseCfg 7) :=
  ⟨baseCfg, 7, [], _, [], by decide, rfl, rfl⟩

/-- One STEP for each row of R127's table. -/
theorem witness_ControlStateTransitions :
    let k := press 9 { boot baseCfg 0x00E0 with ctrl := .waitingForKey 3 }
    (after (step (boot baseCfg 0xF30A)) (fun _ => true) = true ∧
      decode .base false ((boot baseCfg 0xF30A).wordAt 0x200) = some (.ldVK 3)) ∧
    (after (step (boot extraCfg 0x00FD)) (fun _ => true) = true ∧
      decode .extended true ((boot extraCfg 0x00FD).wordAt 0x200) = some .exit) ∧
    (after (step (boot skipCfg 0)) (fun _ => true) = true ∧ decode .base false ((boot skipCfg 0).wordAt 0x200) = none) ∧
    (k.ctrl = .waitingForKey 3 ∧ k.key 9 = true ∧ (∀ j : Nibble, j.toNat < 9 → k.key j = false) ∧
      after (step k) (fun _ => true) = true) ∧
    (after (step { boot extraCfg 0 with ctrl := .halted }) (fun t => t.ctrl == .halted) = true) ∧
    transact .step (boot baseCfg 0) = (.err (.unknownOpcode 0x0000 0x200), boot baseCfg 0) := by decide

theorem witness_OnlyTheNamedInstructionsWrite : ∃ t, exec .cls (boot baseCfg 0) = .next t := ⟨_, rfl⟩

theorem witness_ReturnTakesTopOfStack :
    (State.stack { boot baseCfg 0 with stack := [0x0300, 0x0204] }) = [0x0300] ++ [0x0204] ∧
    (boot baseCfg 0).stack = [] := by decide

theorem witness_CallPushesReturnAddress :
    (State.stack { boot baseCfg 0 with stack := List.replicate 15 0x202 }).length < 16 ∧
    (State.stack { boot baseCfg 0 with stack := List.replicate 16 0x202 }).length = 16 := by decide

theorem witness_JumpWithOffsetIsExact :
    (boot baseCfg 0).cfg.quirks.jumpUsesVx = false ∧ (boot extCfg 0).cfg.quirks.jumpUsesVx = true := by decide

theorem witness_KeySkips : (3 : Nibble).toNat = ((regs [(1, 0x13)] (boot baseCfg 0)).reg 1 &&& 0x0F).toNat := by decide

theorem witness_ReturnUndoesCall : ∃ t, exec (.call 0x300) (boot baseCfg 0) = .next t ∧ t.stack = t.stack := ⟨_, rfl, rfl⟩

theorem witness_LogicWithQuirk :
    (Instr.xor 1 2 = .xor 1 2 ∧ (xor : Bool → Bool → Bool) = xor) ∧
    (boot baseCfg 0).cfg.quirks.logicResetsVf = false ∧ (boot logicCfg 0).cfg.quirks.logicResetsVf = true ∧
    (1 : Nibble) ≠ 0xF := ⟨⟨rfl, rfl⟩, rfl, rfl, by decide⟩

theorem witness_AddAndSubtractWithFlag :
    200 = ((regs [(1, 200), (2, 100)] (boot baseCfg 0)).reg 1).toNat ∧
    100 = ((regs [(1, 200), (2, 100)] (boot baseCfg 0)).reg 2).toNat ∧ (1 : Nibble) ≠ 0xF := by decide

theorem witness_ShiftsWithQuirk :
    (let s := regs [(1, 4), (2, 5)] (boot baseCfg 0)
     5 = (if s.cfg.quirks.shiftUsesVy = true then s.reg 2 else s.reg 1).toNat) ∧
    (let s := regs [(1, 4), (2, 5)] (boot extCfg 0)
     4 = (if s.cfg.quirks.shiftUsesVy = true then s.reg 2 else s.reg 1).toNat) ∧ (1 : Nibble) ≠ 0xF := by decide

theorem witness_IndexRegisterWrites : (boot baseCfg 0).cfg.wf = true := by decide

set_option maxRecDepth 4000 in
theorem witness_LargeGlyphAddress :
    (State.fresh extraCfg 0).cfg.wf = true ∧
    (State.fresh extraCfg 0).cfg.bigFont = some { base := 0x0A0, data := List.replicate 160 0xFF } := ⟨by decide, rfl⟩

/-- The last address, and an access that leaves the address space by one byte. -/
theorem witness_MemoryAccessesAreChecked :
    (boot baseCfg 0).MemWf ∧ (1 : Nat) ≠ 0 ∧ 0xFFF + 1 ≤ 0x1000 ∧ 0x1000 < 0xFFF + 2 ∧ ([0x11] : List Byte).length = 1 :=
  ⟨base_memWf _, by decide, by decide, by decide, rfl⟩

theorem witness_DecimalDigitsAreStored :
    (State.setI (boot baseCfg 0) 0xFFD).MemWf ∧ (State.setI (boot baseCfg 0) 0xFFD).i.toNat + 2 ≤ 0xFFF ∧
    0xFFF < (State.setI (boot baseCfg 0) 0xFFE).i.toNat + 2 := ⟨base_memWf _, by decide, by decide⟩

theorem witness_RegisterDump :
    (State.setI (boot baseCfg 0) 0xFF0).MemWf ∧ (State.setI (boot baseCfg 0) 0xFF0).i.toNat + (15 : Nibble).toNat ≤ 0xFFF ∧
    0xFFF < (State.setI (boot baseCfg 0) 0xFF1).i.toNat + (15 : Nibble).toNat ∧ (15 : Nibble).toNat ≤ (15 : Nibble).toNat :=
  ⟨base_memWf _, by decide, by decide, by decide⟩

theorem witness_RegisterLoad :
    (State.setI (boot baseCfg 0) 0xFFF).i.toNat + (0 : Nibble).toNat ≤ 0xFFF ∧
    0xFFF < (State.setI (boot baseCfg 0) 0xFFF).i.toNat + (1 : Nibble).toNat ∧ (0 : Nibble).toNat ≤ (0 : Nibble).toNat := by
  decide

theorem witness_LoadRestoresDump :
    (State.setI (boot baseCfg 0) 0xFFF).MemWf ∧ ∃ t, exec (.ldMemV 0) (State.setI (boot baseCfg 0) 0xFFF) = .next t ∧
      ∃ u : State, u.cfg = t.cfg ∧ u.mem = t.mem ∧ u.i = (State.setI (boot baseCfg 0) 0xFFF).i :=
  ⟨base_memWf _, _, rfl, State.setI _ 0xFFF, rfl, rfl, rfl⟩

/-- Both instructions, and both bytes of the word. -/
theorem witness_StoredBytesAreFetched :
    let s := State.setI (boot baseCfg 0) 0x300
    s.MemWf ∧
    (∃ t, exec (.ldMemV 1) s = .next t ∧ (State.setPc t 0x300).cfg = t.cfg ∧ (State.setPc t 0x300).mem = t.mem ∧
      (State.setPc t 0x300).pc.toNat ≤ 0xFFE ∧ (State.setPc t 0x300).pc.toNat = s.i.toNat + 0 ∧ 0 < (s.regsUpTo 1).length ∧
      (State.setPc t 0x300).pc.toNat + 1 = s.i.toNat + 1 ∧ 1 < (s.regsUpTo 1).length) ∧
    (∃ t, exec (.ldB 1) s = .next t ∧ (State.setPc t 0x301).pc.toNat = s.i.toNat + 1 ∧
      (State.setPc t 0x301).pc.toNat + 1 = s.i.toNat + 2 ∧ 2 < (bcdDigits (s.reg 1)).length) :=
  ⟨base_memWf _, ⟨_, rfl, rfl, rfl, by decide, by decide, by decide, by decide, by decide⟩,
    ⟨_, rfl, by decide, by decide, by decide⟩⟩

/-- No row at all, a sprite that ends at the last byte, and one that would read one byte more. -/
theorem witness_DrawTogglesSprite :
    (boot baseCfg 0).fb.fits (boot baseCfg 0).res ∧ (0 : Nibble) = 0 ∧
    (State.setI (boot baseCfg 0) 0xFF1).i.toNat + (15 : Nibble).toNat ≤ 0x1000 ∧
    0x1000 < (State.setI (boot baseCfg 0) 0xFF2).i.toNat + (15 : Nibble).toNat ∧ (15 : Nibble) ≠ 0 := by decide

theorem witness_LargeDrawTogglesSprite :
    (State.fresh extCfg 0).fb.fits (State.fresh extCfg 0).res ∧ (State.setI (.fresh extCfg 0) 0xFE0).i.toNat + 31 ≤ 0xFFF ∧
    0xFFF < (State.setI (.fresh extCfg 0) 0xFE1).i.toNat + 31 := ⟨fits_blank _, by decide, by decide⟩

/-- Either draw, on a clear framebuffer, with a sprite that has a set bit (a glyph) and with one that has none. -/
theorem witness_DrawingTwiceRestores :
    let s := State.setI (.fresh extCfg 0) 0x050
    let z := State.setI (.fresh extCfg 0) 0x300
    ((Instr.drw 0 1 5 = .drw 0 1 5 ∧ 5 = (5 : Nibble).toNat) ∧ (Instr.drwLarge 0 1 = .drwLarge 0 1 ∧ 32 = 32)) ∧
    (0 : Nibble) ≠ 0xF ∧ (1 : Nibble) ≠ 0xF ∧ s.fb.fits s.res ∧ s.i.toNat + 32 ≤ 0x1000 ∧
    (∀ px py, s.pixel px py = false) ∧ s.byteAt (s.i.toNat + 0) ≠ 0 ∧
    z.fb.fits z.res ∧ z.i.toNat + 32 ≤ 0x1000 ∧ ∀ r, r < 32 → z.byteAt (z.i.toNat + r) = 0 :=
  ⟨⟨⟨rfl, by decide⟩, rfl, rfl⟩, by decide, by decide, fits_blank _, by decide, pixel_blank _, by decide, fits_blank _,
    by decide, by decide⟩

theorem witness_ScrollsMovePixels :
    127 < (State.fresh extCfg 0).res.width ∧ 63 < (State.fresh extCfg 0).res.height ∧
    63 < (State.fresh baseCfg 0).res.width ∧ 31 < (State.fresh baseCfg 0).res.height := by decide

theorem witness_KeyWaitIsEntered :
    (∀ k, (boot baseCfg 0).key k = false) ∧ (press 9 (boot baseCfg 0)).key 9 = true ∧
    ∀ j : Nibble, j.toNat < (9 : Nibble).toNat → (press 9 (boot baseCfg 0)).key j = false := by decide

theorem witness_FlagStoreSavesAndLoads :
    (15 : Nibble).toNat ≤ (15 : Nibble).toNat ∧ ¬ (4 : Nibble).toNat ≤ (3 : Nibble).toNat := by decide

/-- The last key, released and pressed, and the first number outside the keypad. -/
theorem witness_KeyTransactionsSetLevel :
    15 < 16 ∧ (boot baseCfg 0).keys[15] = false ∧ (press 15 (boot baseCfg 0)).keys[15] = true ∧ 16 ≤ 16 := by decide

theorem witness_ReadPortsObserve :
    63 < (boot baseCfg 0).framebufferRead.width ∧ 31 < (boot baseCfg 0).framebufferRead.height := by decide

end Sys2Proof.Tests
end

/-! SUPPORT. The configuration through one transaction (00_scope.md R2, R9; 10_state.md R34): what a successful memory
write, push, pop, instruction and STEP answer, and from that that none of them writes the configuration. -/

namespace Sys2Proof.Machine

variable {s t u : State}

/-! ## What the checked operations answer when they succeed -/

/-- A memory write that succeeds changes memory only (20_memory.md R41). -/
theorem memWrite_eq_ok {a : Nat} {bs : List Byte} (h : s.memWrite a bs = .ok t) : ∃ m, t = s.setMem m := by
  unfold State.memWrite at h
  cases hc : checkRange a bs.length with
  | error e => simp [hc, Except.map] at h
  | ok _ =>
    obtain ⟨m, hm⟩ := putBytesAt_eq s a bs
    have ht : s.putBytesAt a bs = t := by simpa [hc, Except.map] using h
    exact ⟨m, ht.symm.trans hm⟩

/-- A push that succeeds changes the stack only (10_state.md R25). -/
theorem push_eq_ok {a : Word} (h : s.push a = .ok t) : t = s.setStack (s.stack ++ [a]) := by
  rcases push_cases s a with ⟨-, hp⟩ | ⟨-, hp⟩ <;> rw [hp] at h
  · cases h
  · exact (Except.ok.inj h).symm

/-- A pop that succeeds takes the top of the stack and changes the stack only (10_state.md R26). -/
theorem pop_eq_ok {p : Word × State} (h : s.pop = .ok p) : ∃ l, s.stack = l ++ [p.1] ∧ p.2 = s.setStack l := by
  rcases pop_cases s with ⟨-, hp⟩ | ⟨l, a, hl, hp⟩ <;> rw [hp] at h
  · cases h
  · obtain rfl := Except.ok.inj h
    exact ⟨l, hl, rfl⟩

/-- Everything a STEP that succeeds can have done: ended at the poll with nothing changed, executed the instruction it
fetched, or skipped an Unknown word (30_encoding.md R63, 60_exceptions.md R121). -/
theorem step_eq_next (h : step s = .next t) :
    (s.poll = none ∧ t = s) ∨
      ∃ u, s.poll = some u ∧ u.pc.toNat + 2 ≤ memSize ∧
        ((∃ i, decodeIn u.cfg (u.wordAt u.pc.toNat) = some i ∧ exec i u.advance = .next t) ∨
          (decodeIn u.cfg (u.wordAt u.pc.toNat) = none ∧ u.cfg.unknownPolicy = .skip ∧ t = u.advance)) := by
  cases hp : s.poll with
  | none =>
    have hs : s = t := by simpa only [step_eq, hp, Host.Outcome.next.injEq] using h
    exact .inl ⟨rfl, hs.symm⟩
  | some u =>
    have hf : u.fetchExecute = .next t := by simpa only [step_eq, hp] using h
    refine .inr ⟨u, rfl, ?_⟩
    rcases fetchExecute_cases u with
      ⟨-, he⟩ | ⟨hpc, ⟨i, hd, he⟩ | ⟨hd, ⟨-, he⟩ | ⟨hs, he⟩⟩⟩ <;> rw [he] at hf
    · cases hf
    · exact ⟨hpc, .inl ⟨i, hd, hf⟩⟩
    · cases hf
    · exact ⟨hpc, .inr ⟨hd, hs, (Host.Outcome.next.inj hf).symm⟩⟩

/-! ## The configuration -/

@[simp] theorem skipIf_cfg (s : State) (c : Bool) : (s.skipIf c).cfg = s.cfg := by
  rw [skipIf_eq, setPc_cfg]

/-- An answer that is a state with the old configuration. -/
theorem cfg_of_next (h : (.next u : Result) = .next t) (hu : u.cfg = s.cfg) : t.cfg = s.cfg :=
  Host.Outcome.next.inj h ▸ hu

/-- No instruction writes the configuration. The arms that check an address or the depth first go through what their
operation answers; every other arm is a chain of updates of other fields. -/
theorem exec_cfg {i : Instr} (h : exec i s = .next t) : t.cfg = s.cfg := by
  cases i with
  | ret =>
    obtain ⟨p, hp, hn⟩ := orRaise_eq_next.1 h
    obtain ⟨l, -, hl⟩ := pop_eq_ok hp
    exact cfg_of_next hn (by rw [setPc_cfg, hl, setStack_cfg])
  | call nnn =>
    obtain ⟨u, hu, hn⟩ := orRaise_eq_next.1 h
    exact cfg_of_next hn (by rw [setPc_cfg, push_eq_ok hu, setStack_cfg])
  | ldB x =>
    obtain ⟨u, hu, hn⟩ := orRaise_eq_next.1 h
    obtain ⟨m, rfl⟩ := memWrite_eq_ok hu
    exact cfg_of_next hn (setMem_cfg s m)
  | ldMemV x =>
    obtain ⟨u, hu, hn⟩ := orRaise_eq_next.1 h
    obtain ⟨m, rfl⟩ := memWrite_eq_ok hu
    exact cfg_of_next hn (by rw [setI_cfg, setMem_cfg])
  | ldVMem x | drw x y n | drwLarge x y =>
    obtain ⟨bytes, -, hn⟩ := orRaise_eq_next.1 h
    exact cfg_of_next hn rfl
  | seImm x nn | sneImm x nn | seReg x y | sneReg x y | skp x | sknp x => exact cfg_of_next h (skipIf_cfg s _)
  | or x y | and x y | xor x y => exact cfg_of_next h (setRegLogic_cfg s x _)
  | _ => exact cfg_of_next h rfl

/-- The key-wait poll writes one V register and the control state at most (60_exceptions.md R128). -/
theorem poll_cfg (h : s.poll = some u) : u.cfg = s.cfg := by
  obtain ⟨-, ⟨-, rfl⟩ | ⟨x, k, -, -, rfl⟩⟩ := poll_some s h
  · rfl
  · rw [setCtrl_cfg, setReg_cfg]

/-- A STEP that succeeds keeps the configuration. -/
theorem step_cfg (h : step s = .next t) : t.cfg = s.cfg := by
  rcases step_eq_next h with ⟨-, rfl⟩ | ⟨u, hu, -, ⟨i, -, he⟩ | ⟨-, -, rfl⟩⟩
  · rfl
  · calc t.cfg = u.advance.cfg := exec_cfg he
      _ = u.cfg := by rw [advance_eq, setPc_cfg]
      _ = s.cfg := poll_cfg hu
  · rw [advance_eq, setPc_cfg, poll_cfg hu]

/-- KEY_DOWN and KEY_UP, refused or not, keep the configuration (60_exceptions.md R133). -/
theorem keyTransaction_cfg (s : State) (k : Nat) (b : Bool) : (s.keyTransaction k b).2.cfg = s.cfg := by
  unfold State.keyTransaction State.putKey
  by_cases hk : k < 16 <;> simp [hk]

/-- The state after a STEP is the step's own when it succeeds and the old one when it does not (60_exceptions.md
R120). -/
theorem transact_step_cases (s : State) :
    step s = .next (transact .step s).2 ∨ (transact .step s).2 = s := by
  cases h : step s <;> simp [transact, h]

/-- Settles O21, by the transactions: a STEP through `step_cfg`, and the others write the timers, the keypad or
nothing. -/
theorem configurationNeverChanges : Obligations.ConfigurationNeverChanges := by
  intro a s
  cases a with
  | step =>
    rcases transact_step_cases s with h | h
    · exact step_cfg h
    · rw [h]
  | tick => rfl
  | keyDown k => exact keyTransaction_cfg s k true
  | keyUp k => exact keyTransaction_cfg s k false
  | framebufferRead | soundRead => rfl

end Sys2Proof.Machine

/-! SUPPORT. What a successful instruction writes (10_state.md R15 to R34), the invariant through one step and through a
run, and what INIT leaves outside memory (10_state.md R35). -/

namespace Sys2Proof.Machine

variable {s t u : State} {x y : Nibble} {i : Instr}

theorem eq_of_next (h : (.next u : Result) = .next t) : t = u := (Host.Outcome.next.inj h).symm

/-! ## The instructions that can fail, when they succeed -/

/-- A memory write that succeeds was of no byte or inside the address space (20_memory.md R41). -/
theorem memWrite_eq_ok_range {a : Nat} {bs : List Byte} (h : s.memWrite a bs = .ok t) :
    (bs.length = 0 ∨ a + bs.length ≤ memSize) ∧ t = s.putBytesAt a bs := by
  by_cases hr : bs.length = 0 ∨ a + bs.length ≤ memSize
  · rw [memWrite_ok s hr] at h
    exact ⟨hr, (Except.ok.inj h).symm⟩
  · rw [memWrite_error s (by omega) (by omega)] at h
    cases h

/-- A memory read that succeeds gives as many bytes as were asked for. -/
theorem length_of_memRead {a n : Nat} {bs : List Byte} (h : s.memRead a n = .ok bs) : bs.length = n := by
  by_cases hr : n = 0 ∨ a + n ≤ memSize
  · rw [memRead_ok s hr] at h
    rw [← Except.ok.inj h, List.length_map, List.length_range]
  · rw [memRead_error s (by omega) (by omega)] at h
    cases h

theorem exec_ret_next (h : exec .ret s = .next t) :
    ∃ l a, s.stack = l ++ [a] ∧ t = (s.setStack l).setPc a := by
  obtain ⟨⟨a, u⟩, hp, hn⟩ := orRaise_eq_next.1 h
  obtain ⟨l, hl, rfl⟩ := pop_eq_ok hp
  exact ⟨l, a, hl, eq_of_next hn⟩

theorem exec_call_next {nnn : Addr} (h : exec (.call nnn) s = .next t) :
    s.stack.length ≠ 16 ∧ t = (s.setStack (s.stack ++ [s.pc])).setPc (zextAddr nnn) := by
  obtain ⟨u, hu, hn⟩ := orRaise_eq_next.1 h
  rcases push_cases s s.pc with ⟨-, hp⟩ | ⟨hd, -⟩
  · cases hp.symm.trans hu
  · obtain rfl := push_eq_ok hu
    exact ⟨hd, eq_of_next hn⟩

theorem exec_drw_next {n : Nibble} (h : exec (.drw x y n) s = .next t) : ∃ rows : List Byte, t = s.draw x y rows := by
  obtain ⟨rows, -, hn⟩ := orRaise_eq_next.1 h
  exact ⟨rows, eq_of_next hn⟩

theorem exec_drwLarge_next (h : exec (.drwLarge x y) s = .next t) : ∃ rows : List Word, t = s.draw x y rows := by
  obtain ⟨rows, -, hn⟩ := orRaise_eq_next.1 h
  exact ⟨rows, eq_of_next hn⟩

theorem exec_ldB_next (h : exec (.ldB x) s = .next t) :
    s.i.toNat + 3 ≤ memSize ∧ t = s.putBytesAt s.i.toNat (bcdDigits (s.reg x)) := by
  obtain ⟨u, hu, hn⟩ := orRaise_eq_next.1 h
  obtain ⟨hr, rfl⟩ := memWrite_eq_ok_range hu
  rw [length_bcdDigits] at hr
  exact ⟨by omega, eq_of_next hn⟩

theorem exec_ldMemV_next (h : exec (.ldMemV x) s = .next t) :
    s.i.toNat + (x.toNat + 1) ≤ memSize ∧ t = (s.putBytesAt s.i.toNat (s.regsUpTo x)).setI (s.indexAfter x) := by
  obtain ⟨u, hu, hn⟩ := orRaise_eq_next.1 h
  obtain ⟨hr, rfl⟩ := memWrite_eq_ok_range hu
  rw [length_regsUpTo] at hr
  exact ⟨by omega, eq_of_next hn⟩

theorem exec_ldVMem_next (h : exec (.ldVMem x) s = .next t) :
    ∃ bs, bs.length = x.toNat + 1 ∧ t = (s.setV (putBytes bs 0 s.v)).setI (s.indexAfter x) := by
  obtain ⟨bs, hb, hn⟩ := orRaise_eq_next.1 h
  exact ⟨bs, length_of_memRead hb, eq_of_next hn⟩

/-! ## The V registers an update can write -/

theorem setReg_reg_or (s : State) (x r : Nibble) (b : Byte) : (s.setReg x b).reg r = s.reg r ∨ x = r :=
  or_iff_not_imp_right.2 fun hr => reg_setReg_ne s b (Ne.symm hr)

theorem setFlag_reg_or (s : State) (r : Nibble) (c : Bool) : (s.setFlag c).reg r = s.reg r ∨ r = vf :=
  or_iff_not_imp_right.2 fun hr => setFlag_reg_ne s c hr

/-- A result and its flag write VX and VF (10_state.md R18). -/
theorem setRegFlag_reg_or (s : State) (x r : Nibble) (b : Byte) (c : Bool) :
    (s.setRegFlag x b c).reg r = s.reg r ∨ x = r ∨ r = vf := by
  rw [setRegFlag_reg]
  split_ifs with hf hx
  · exact .inr (.inr hf)
  · exact .inr (.inl hx.symm)
  · exact .inl rfl

/-- A logic result writes VX, and VF only under `logic_resets_vf` (41_alu.md R79 to R81). -/
theorem setRegLogic_reg_or (s : State) (x r : Nibble) (b : Byte) :
    (s.setRegLogic x b).reg r = s.reg r ∨ x = r ∨ r = vf ∧ s.cfg.quirks.logicResetsVf = true := by
  rw [setRegLogic_reg]
  split_ifs with hf hx
  · exact .inr (.inr hf.symm)
  · exact .inr (.inl hx.symm)
  · exact .inl rfl

/-- Bytes written from V0 on change no register past the last of them. -/
theorem setV_putBytes_reg_or (s : State) (r : Nibble) {bs : List Byte} (h : bs.length = x.toNat + 1) :
    (s.setV (putBytes bs 0 s.v)).reg r = s.reg r ∨ r.toNat ≤ x.toNat := by
  by_cases hr : r.toNat ≤ x.toNat
  · exact .inr hr
  · rw [reg_setV_putBytes, List.getD_eq_default _ _ (by omega)]
    exact .inl rfl

/-- I after FX55 and FX65 changes only under `load_store_increments_i` (42_index_memory.md R93, R94). -/
theorem indexAfter_eq_or (s : State) (x : Nibble) :
    s.indexAfter x = s.i ∨ s.cfg.quirks.loadStoreIncrementsI = true := by
  by_cases hq : s.cfg.quirks.loadStoreIncrementsI = true <;> simp [State.indexAfter, hq]

/-- A logic result changes the V registers only. -/
theorem setRegLogic_eq (s : State) (x : Nibble) (b : Byte) : ∃ v, s.setRegLogic x b = s.setV v := by
  unfold State.setRegLogic
  split
  · exact ⟨_, rfl⟩
  · exact ⟨_, rfl⟩

/-! ## What each instruction writes -/

/-- The clauses of O23 under names, for one instruction that went from `s` to `t`. A part that a proof does not name is
one the instruction leaves as it was. -/
structure WritesOnlyNamed (i : Instr) (s t : State) : Prop where
  cfg : t.cfg = s.cfg := by rfl
  keys : t.keys = s.keys := by rfl
  reg : ∀ r : Nibble, t.reg r = s.reg r ∨
    (∃ nn, i = .ldImm r nn ∨ i = .addImm r nn ∨ i = .rnd r nn) ∨ i = .ldVDt r ∨
    (∃ y, i = .ldReg r y ∨ i = .or r y ∨ i = .and r y ∨ i = .xor r y ∨ i = .add r y ∨ i = .sub r y ∨ i = .shr r y ∨
      i = .subn r y ∨ i = .shl r y) ∨
    (∃ x, (i = .ldVMem x ∨ i = .ldVR x) ∧ r.toNat ≤ x.toNat) ∨
    (r = vf ∧ ((∃ x y, i = .add x y ∨ i = .sub x y ∨ i = .shr x y ∨ i = .subn x y ∨ i = .shl x y ∨ i = .drwLarge x y) ∨
      (∃ x y n, i = .drw x y n) ∨
      (s.cfg.quirks.logicResetsVf = true ∧ ∃ x y, i = .or x y ∨ i = .and x y ∨ i = .xor x y))) := by
    exact fun _ => .inl rfl
  index : t.i = s.i ∨ (∃ n, i = .ldI n) ∨ (∃ x, i = .addI x ∨ i = .ldF x ∨ i = .ldHF x) ∨
    ((∃ x, i = .ldMemV x ∨ i = .ldVMem x) ∧ s.cfg.quirks.loadStoreIncrementsI = true) := by exact .inl rfl
  pc : t.pc = s.pc ∨ i = .ret ∨ (∃ n, i = .jp n ∨ i = .call n ∨ i = .jpOff n) ∨
    (∃ x nn, i = .seImm x nn ∨ i = .sneImm x nn) ∨ (∃ x y, i = .seReg x y ∨ i = .sneReg x y) ∨
    (∃ x, i = .skp x ∨ i = .sknp x) := by exact .inl rfl
  stack : t.stack = s.stack ∨ i = .ret ∨ ∃ n, i = .call n := by exact .inl rfl
  dt : t.dt = s.dt ∨ ∃ x, i = .ldDtV x := by exact .inl rfl
  st : t.st = s.st ∨ ∃ x, i = .ldStV x := by exact .inl rfl
  res : t.res = s.res ∨ i = .low ∨ i = .high := by exact .inl rfl
  fb : t.fb = s.fb ∨ i = .cls ∨ (∃ x y n, i = .drw x y n) ∨ (∃ x y, i = .drwLarge x y) ∨ (∃ n, i = .scd n) ∨
    i = .low ∨ i = .high ∨ i = .scr ∨ i = .scl := by exact .inl rfl
  ctrl : t.ctrl = s.ctrl ∨ (∃ x, i = .ldVK x) ∨ i = .exit := by exact .inl rfl
  flags : t.flags = s.flags ∨ ∃ x, i = .ldRV x := by exact .inl rfl
  rng : t.rng = s.rng ∨ ∃ x nn, i = .rnd x nn := by exact .inl rfl
  mem : t.mem = s.mem ∨ ∃ x, i = .ldB x ∨ i = .ldMemV x := by exact .inl rfl

theorem setRegLogic_writesOnlyNamed (s : State) (x y : Nibble) (b : Byte)
    (hi : i = .or x y ∨ i = .and x y ∨ i = .xor x y) : WritesOnlyNamed i s (s.setRegLogic x b) := by
  have hreg := fun r => setRegLogic_reg_or s x r b
  obtain ⟨v, hv⟩ := setRegLogic_eq s x b
  rw [hv] at hreg ⊢
  rcases hi with rfl | rfl | rfl
  all_goals exact { reg := by simpa using hreg }

/-- Every instruction that succeeds writes the parts it is named with and no other; the cases are grouped by the parts
they write. -/
theorem exec_writesOnlyNamed (h : exec i s = .next t) : WritesOnlyNamed i s t := by
  cases i with
  | jp nnn | jpOff nnn =>
    obtain rfl := eq_of_next h
    exact { pc := by simp }
  | seImm x nn | sneImm x nn | seReg x y | sneReg x y | skp x | sknp x =>
    obtain rfl := eq_of_next h
    rw [skipIf_eq]
    exact { pc := by simp }
  | ret =>
    obtain ⟨l, a, -, rfl⟩ := exec_ret_next h
    exact { stack := by simp, pc := by simp }
  | call nnn =>
    obtain ⟨-, rfl⟩ := exec_call_next h
    exact { stack := by simp, pc := by simp }
  | ldImm x nn | addImm x nn | ldReg x y | ldVDt x =>
    obtain rfl := eq_of_next h
    exact { reg := by simpa using fun r => setReg_reg_or s x r _ }
  | rnd x nn =>
    obtain rfl := eq_of_next h
    exact { reg := by simpa using fun r => setReg_reg_or (s.setRng s.rng.next.2) x r _, rng := by simp }
  | or x y | and x y | xor x y =>
    obtain rfl := eq_of_next h
    exact setRegLogic_writesOnlyNamed s x y _ (by simp)
  | add x y | sub x y | subn x y | shr x y | shl x y =>
    obtain rfl := eq_of_next h
    exact { reg := by simpa using fun r => setRegFlag_reg_or s x r _ _ }
  | ldI nnn | addI x | ldF x | ldHF x =>
    obtain rfl := eq_of_next h
    exact { index := by simp }
  | ldB x =>
    obtain ⟨-, rfl⟩ := exec_ldB_next h
    obtain ⟨m, hm⟩ := putBytesAt_eq s s.i.toNat (bcdDigits (s.reg x))
    rw [hm]
    exact { mem := by simp }
  | ldMemV x =>
    obtain ⟨-, rfl⟩ := exec_ldMemV_next h
    obtain ⟨m, hm⟩ := putBytesAt_eq s s.i.toNat (s.regsUpTo x)
    rw [hm]
    exact { index := by simpa using indexAfter_eq_or s x, mem := by simp }
  | ldVMem x =>
    obtain ⟨bs, hlen, rfl⟩ := exec_ldVMem_next h
    exact
      { reg := by simpa using fun r => setV_putBytes_reg_or s r hlen
        index := by simpa using indexAfter_eq_or s x }
  | ldVR x =>
    obtain rfl := eq_of_next h
    exact { reg := by simpa using fun r => setV_putBytes_reg_or s r (length_flagsUpTo s x) }
  | ldRV x =>
    obtain rfl := eq_of_next h
    exact { flags := by simp }
  | cls | scd n | scr | scl =>
    obtain rfl := eq_of_next h
    exact { fb := by simp }
  | low | high =>
    obtain rfl := eq_of_next h
    exact { res := by simp, fb := by simp }
  | drw x y n =>
    obtain ⟨rows, rfl⟩ := exec_drw_next h
    obtain ⟨g, c, hd⟩ := draw_eq rows s x y
    rw [hd]
    exact { reg := by simpa using fun r => setFlag_reg_or (s.setDisplay s.res g) r c, fb := by simp }
  | drwLarge x y =>
    obtain ⟨rows, rfl⟩ := exec_drwLarge_next h
    obtain ⟨g, c, hd⟩ := draw_eq rows s x y
    rw [hd]
    exact { reg := by simpa using fun r => setFlag_reg_or (s.setDisplay s.res g) r c, fb := by simp }
  | ldDtV x =>
    obtain rfl := eq_of_next h
    exact { dt := by simp }
  | ldStV x =>
    obtain rfl := eq_of_next h
    exact { st := by simp }
  | exit | ldVK x =>
    obtain rfl := eq_of_next h
    exact { ctrl := by simp }

/-- Settles O23, by `exec_writesOnlyNamed`, clause by clause. -/
theorem onlyTheNamedInstructionsWrite : Obligations.OnlyTheNamedInstructionsWrite := fun _ _ _ h =>
  have w := exec_writesOnlyNamed h
  ⟨w.cfg, w.keys, w.reg, w.index, w.pc, w.stack, w.dt, w.st, w.res, w.fb, w.ctrl, w.flags, w.rng, w.mem⟩

/-! ## The rows that decode exist in the configuration (30_encoding.md R56, R58, R59) -/

section
variable {m : Mode} {e : Bool}

/-- One row of a family: what it gives and what the rows after it give. -/
theorem all_ite {p : Instr → Bool} {c : Prop} [Decidable c] {a b : Option Instr} (ha : c → a.all p = true)
    (hb : ¬c → b.all p = true) : (if c then a else b).all p = true := by
  split_ifs with hc
  · exact ha hc
  · exact hb hc

theorem mode_eq_extended_of_ne_base (h : m ≠ .base) : m = .extended := by
  cases m
  · exact absurd rfl h
  · rfl

/-- The rows 0NNN: those past the test of the mode need `Extended`, those past the test of `SCHIP_EXTRA` both. -/
theorem decodeSystem_all_wellFormed (m : Mode) (e : Bool) (w : Word) :
    (decodeSystem m e w).all (Instr.wellFormed m e) = true := by
  unfold decodeSystem
  refine all_ite (fun _ => rfl) fun _ => all_ite (fun _ => rfl) fun _ => all_ite (fun _ => rfl) fun hmode => ?_
  obtain rfl := mode_eq_extended_of_ne_base hmode
  refine all_ite (fun _ => rfl) fun _ => all_ite (fun _ => rfl) fun _ => all_ite (fun _ => rfl) fun _ =>
    all_ite (fun _ => rfl) fun hextra => ?_
  obtain rfl := Bool.eq_true_of_not_eq_false hextra
  exact all_ite (fun _ => rfl) fun _ => all_ite (fun _ => rfl) fun _ => all_ite (fun _ => rfl) fun _ => rfl

theorem decodeArith_all_wellFormed (x y n : Nibble) : (decodeArith x y n).all (Instr.wellFormed m e) = true := by
  unfold decodeArith
  split <;> rfl

theorem decodeKey_all_wellFormed (x : Nibble) (nn : Byte) : (decodeKey x nn).all (Instr.wellFormed m e) = true :=
  all_ite (fun _ => rfl) fun _ => all_ite (fun _ => rfl) fun _ => rfl

theorem decodeMiscBoth_all_wellFormed (x : Nibble) (nn : Byte) :
    (decodeMiscBoth x nn).all (Instr.wellFormed m e) = true := by
  unfold decodeMiscBoth
  iterate 9 refine all_ite (fun _ => rfl) fun _ => ?_
  rfl

theorem decodeMiscExtended_all_wellFormed (e : Bool) (x : Nibble) (nn : Byte) :
    (decodeMiscExtended e x nn).all (Instr.wellFormed .extended e) = true :=
  all_ite (fun _ => rfl) fun _ => all_ite (fun _ => rfl) fun _ => all_ite (fun h30 => h30.2) fun _ => rfl

theorem decodeMisc_all_wellFormed (m : Mode) (e : Bool) (x : Nibble) (nn : Byte) :
    (decodeMisc m e x nn).all (Instr.wellFormed m e) = true := by
  cases m with
  | base => exact decodeMiscBoth_all_wellFormed x nn
  | extended =>
    have hboth := decodeMiscBoth_all_wellFormed (m := .extended) (e := e) x nn
    unfold decodeMisc
    cases hrow : decodeMiscBoth x nn with
    | none => exact decodeMiscExtended_all_wellFormed e x nn
    | some i => rwa [hrow] at hboth

theorem decodeDraw_wellFormed (m : Mode) (e : Bool) (x y n : Nibble) : (decodeDraw m x y n).wellFormed m e = true := by
  unfold decodeDraw
  split_ifs with hl
  · simp [Instr.wellFormed, hl.1]
  · simpa [Instr.wellFormed, imp_iff_not_or] using hl

theorem decode_all_wellFormed (m : Mode) (e : Bool) (w : Word) : (decode m e w).all (Instr.wellFormed m e) = true := by
  unfold decode
  -- Case `h_(k+1)` is the leading nibble `k`.
  split
  case h_1 => exact decodeSystem_all_wellFormed m e w
  case h_6 | h_10 => exact all_ite (fun _ => rfl) fun _ => rfl
  case h_9 => exact decodeArith_all_wellFormed _ _ _
  case h_14 => exact decodeDraw_wellFormed m e _ _ _
  case h_15 => exact decodeKey_all_wellFormed _ _
  case h_16 => exact decodeMisc_all_wellFormed m e _ _
  all_goals rfl

/-- An instruction that a word decodes to exists in the configuration it was decoded in. -/
theorem decode_wellFormed {w : Word} (h : decode m e w = some i) : i.wellFormed m e = true := by
  simpa [h] using decode_all_wellFormed m e w

end

/-! ## The invariant through one instruction -/

theorem memWf_congr (hcfg : t.cfg = s.cfg) (hmem : t.mem = s.mem) (hs : s.MemWf) : t.MemWf := by
  rwa [State.MemWf, hcfg, hmem]

/-- Every instruction keeps memory in canonical form: the two that write it do so inside the address space. -/
theorem exec_memWf (h : exec i s = .next t) (hs : s.MemWf) : t.MemWf := by
  rcases (exec_writesOnlyNamed h).mem with hmem | ⟨x, rfl | rfl⟩
  · exact memWf_congr (exec_cfg h) hmem hs
  · obtain ⟨hr, rfl⟩ := exec_ldB_next h
    exact memWf_putBytesAt s hs _ _ hr
  · obtain ⟨hr, rfl⟩ := exec_ldMemV_next h
    exact memWf_putBytesAt s hs _ _ (by rwa [length_regsUpTo])

theorem zextAddr_le (nnn : Addr) : (zextAddr nnn).toNat ≤ 0xFFF := by
  have := nnn.isLt
  rw [zextAddr, BitVec.toNat_setWidth]
  omega

/-- The target of BNNN is at most 0x10FE (40_flow.md R70). -/
theorem jumpTarget_le (s : State) (nnn : Addr) : (s.jumpTarget nnn).toNat ≤ 0x10FE := by
  have hn := zextAddr_le nnn
  have hb := (s.reg (jumpReg s.cfg.quirks nnn)).isLt
  rw [State.jumpTarget, zextByte, BitVec.toNat_add, BitVec.toNat_setWidth]
  omega

theorem toNat_add_two_le (a : Word) : (a + 2).toNat ≤ a.toNat + 2 := Nat.mod_le _ _

/-- A skip from inside memory goes no further than 0x1002 (30_encoding.md R65). -/
theorem skipIf_pc_le (c : Bool) (h : s.pc.toNat ≤ 0x1000) : (s.skipIf c).pc.toNat ≤ 0x10FE := by
  rw [skipIf_eq, setPc_pc]
  split_ifs
  · exact (toNat_add_two_le s.pc).trans (by omega)
  · omega

/-- The depth stays at most 16 and every return address at most 0x1000 (10_state.md R24): the one a CALL pushes is the
PC its fetch left. -/
theorem exec_stack_bounded (h : exec i s = .next t) (hpc : s.pc.toNat ≤ 0x1000) (hs : s.FlowBounded) :
    t.stack.length ≤ 16 ∧ ∀ a ∈ t.stack, a.toNat ≤ 0x1000 := by
  obtain ⟨hdepth, hret, -⟩ := hs
  rcases (exec_writesOnlyNamed h).stack with hsame | rfl | ⟨nnn, rfl⟩
  · rw [hsame]
    exact ⟨hdepth, hret⟩
  · obtain ⟨l, a, hl, rfl⟩ := exec_ret_next h
    rw [hl] at hdepth hret
    exact ⟨(List.sublist_append_left l [a]).length_le.trans hdepth, fun b hb => hret b (List.mem_append_left _ hb)⟩
  · obtain ⟨hfree, rfl⟩ := exec_call_next h
    constructor
    · rw [setPc_stack, setStack_stack, List.length_append, List.length_singleton]
      omega
    · simpa [or_imp, forall_and] using ⟨hret, hpc⟩

/-- PC stays at most 0x10FE (10_state.md R22), the farthest target of BNNN. -/
theorem exec_pc_bounded (h : exec i s = .next t) (hpc : s.pc.toNat ≤ 0x1000) (hs : s.FlowBounded) :
    t.pc.toNat ≤ 0x10FE := by
  obtain ⟨-, hret, hle⟩ := hs
  rcases (exec_writesOnlyNamed h).pc with
    hsame | rfl | ⟨nnn, rfl | rfl | rfl⟩ | ⟨x, nn, rfl | rfl⟩ | ⟨x, y, rfl | rfl⟩ | ⟨x, rfl | rfl⟩
  · rwa [hsame]
  · obtain ⟨l, a, hl, rfl⟩ := exec_ret_next h
    have ha : a.toNat ≤ 0x1000 := hret a (by simp [hl])
    exact ha.trans (by decide)
  · obtain rfl := eq_of_next h
    exact (zextAddr_le nnn).trans (by decide)
  · obtain ⟨-, rfl⟩ := exec_call_next h
    exact (zextAddr_le nnn).trans (by decide)
  · obtain rfl := eq_of_next h
    exact jumpTarget_le s nnn
  all_goals
    obtain rfl := eq_of_next h
    exact skipIf_pc_le _ hpc

theorem exec_flowBounded (h : exec i s = .next t) (hpc : s.pc.toNat ≤ 0x1000) (hs : s.FlowBounded) :
    t.FlowBounded :=
  have ⟨hdepth, hret⟩ := exec_stack_bounded h hpc hs
  ⟨hdepth, hret, exec_pc_bounded h hpc hs⟩

/-- The framebuffer stays the grid of the resolution (10_state.md R28). -/
theorem exec_fits (h : exec i s = .next t) (hfits : s.fb.fits s.res) : t.fb.fits t.res := by
  cases i with
  | cls | low | high =>
    obtain rfl := eq_of_next h
    exact fits_blank _
  | scd n | scr | scl =>
    obtain rfl := eq_of_next h
    exact fits_tabulate _ _
  | drw x y n =>
    obtain ⟨rows, rfl⟩ := exec_drw_next h
    exact fits_drawSprite _ _ rows hfits
  | drwLarge x y =>
    obtain ⟨rows, rfl⟩ := exec_drwLarge_next h
    exact fits_drawSprite _ _ rows hfits
  | _ =>
    have hfb : t.fb = s.fb := by simpa using (exec_writesOnlyNamed h).fb
    have hres : t.res = s.res := by simpa using (exec_writesOnlyNamed h).res
    rwa [hfb, hres]

/-- `Base` mode stays in `Lo` (10_state.md R29): 00FF, which leaves it, exists in `Extended` mode only (30_encoding.md
R58). -/
theorem exec_lo_of_base (h : exec i s = .next t) (hi : i.wellFormed s.cfg.mode s.cfg.schipExtra = true)
    (hlo : s.cfg.mode = .base → s.res = .lo) (hbase : t.cfg.mode = .base) : t.res = .lo := by
  rw [exec_cfg h] at hbase
  rcases (exec_writesOnlyNamed h).res with hsame | rfl | rfl
  · exact hsame.trans (hlo hbase)
  · obtain rfl := eq_of_next h
    rfl
  · rw [hbase] at hi
    cases hi

/-- Only 00FD halts the core, and it exists only in `Extended` mode with `SCHIP_EXTRA` (30_encoding.md R59). -/
theorem exec_ctrlWf (h : exec i s = .next t) (hi : i.wellFormed s.cfg.mode s.cfg.schipExtra = true)
    (hs : s.CtrlWf) : t.CtrlWf := by
  rw [State.CtrlWf, exec_cfg h]
  rcases (exec_writesOnlyNamed h).ctrl with hctrl | ⟨x, rfl⟩ | rfl
  · rwa [hctrl]
  · obtain rfl := eq_of_next h
    exact fun hh => by cases hh
  · simpa [Instr.wellFormed] using fun _ => hi

/-- An instruction that was fetched inside memory and decoded keeps the invariant. -/
theorem exec_inv (h : exec i s = .next t) (hi : i.wellFormed s.cfg.mode s.cfg.schipExtra = true)
    (hpc : s.pc.toNat ≤ 0x1000) (hs : s.Inv) : t.Inv where
  cfg := exec_cfg h ▸ hs.cfg
  mem := exec_memWf h hs.mem
  flow := exec_flowBounded h hpc hs.flow
  screen := ⟨exec_fits h hs.screen.1, exec_lo_of_base h hi hs.screen.2⟩
  ctrl := exec_ctrlWf h hi hs.ctrl

/-! ## The invariant through one STEP -/

/-- The key-wait poll leaves a running core, and otherwise writes one V register at most (60_exceptions.md R128). -/
theorem poll_inv (h : s.poll = some u) (hs : s.Inv) : u.Inv := by
  obtain ⟨hrun, ⟨-, rfl⟩ | ⟨x, k, -, -, rfl⟩⟩ := poll_some s h
  · exact hs
  · exact ⟨hs.cfg, hs.mem, hs.flow, hs.screen, fun hh => by cases hh⟩

theorem advance_pc_le (h : s.pc.toNat + 2 ≤ memSize) : s.advance.pc.toNat ≤ 0x1000 :=
  (toNat_add_two_le s.pc).trans h

theorem advance_inv (h : s.pc.toNat + 2 ≤ memSize) (hs : s.Inv) : s.advance.Inv :=
  ⟨hs.cfg, hs.mem, ⟨hs.flow.1, hs.flow.2.1, (advance_pc_le h).trans (by decide)⟩, hs.screen, hs.ctrl⟩

/-- Settles O17, by what a STEP that succeeds can have done. -/
theorem stepPreservesInvariant : Obligations.StepPreservesInvariant := by
  intro s t hs h
  rcases step_eq_next h with ⟨-, rfl⟩ | ⟨u, hu, hpc, hexec | ⟨-, -, rfl⟩⟩
  · exact hs
  · obtain ⟨i, hd, he⟩ := hexec
    exact exec_inv he (decode_wellFormed hd) (advance_pc_le hpc) (advance_inv hpc (poll_inv hu hs))
  · exact advance_inv hpc (poll_inv hu hs)

/-! ## INIT -/

/-- The program load changes memory only (20_memory.md R47). -/
theorem load_eq (s : State) (rom : List Byte) : ∃ m, s.load rom = s.setMem m := putBytesAt_eq s progBase rom

theorem fresh_reg (c : Config) (seed : Nat) (x : Nibble) : (State.fresh c seed).reg x = 0 :=
  Vector.getElem_replicate x.isLt

theorem fresh_key (c : Config) (seed : Nat) (k : Nibble) : (State.fresh c seed).key k = false :=
  Vector.getElem_replicate k.isLt

/-- Settles O1: INIT leaves the fresh state with another memory. -/
theorem initLeavesRegisters : Obligations.InitLeavesRegisters := by
  intro c seed rom hlen
  rcases initCore_cases c seed rom with ⟨hgt, -⟩ | ⟨-, hinit⟩
  · exact absurd hlen (Nat.not_le.2 hgt)
  · obtain ⟨m, hm⟩ := load_eq (State.fresh c seed) rom
    rw [hm] at hinit
    refine ⟨_, hinit, rfl, fresh_reg c seed, rfl, rfl, rfl, rfl, rfl, ?_, fits_blank _, pixel_blank _,
      fresh_key c seed, rfl, fun k hk => Vector.getElem_replicate hk, rfl⟩
    cases hc : c.mode <;> simp [State.fresh, Resolution.ofMode, hc]

/-! ## The invariant along a run -/

theorem initCore_inv {c : Config} {seed : Nat} {rom : List Byte} (hc : c.wf = true) (h : initCore c seed rom = .ok t) :
    t.Inv := by
  rcases initCore_cases c seed rom with ⟨-, he⟩ | ⟨hlen, he⟩ <;> rw [he] at h
  · cases h
  · obtain rfl := Except.ok.inj h
    have hmem : ((State.fresh c seed).load rom).MemWf :=
      memWf_putBytesAt _ (fresh_memWf c seed) progBase rom (Nat.add_le_add_left hlen progBase)
    obtain ⟨m, hm⟩ := load_eq (State.fresh c seed) rom
    rw [hm] at hmem ⊢
    exact ⟨hc, hmem, ⟨Nat.zero_le _, fun _ ha => absurd ha List.not_mem_nil, show (0x200 : Nat) ≤ 0x10FE by decide⟩,
      ⟨fits_blank _, congrArg Resolution.ofMode⟩, fun hh => by cases hh⟩

theorem keyTransaction_inv (hs : s.Inv) (k : Nat) (b : Bool) : (s.keyTransaction k b).2.Inv := by
  unfold State.keyTransaction State.putKey
  split_ifs with hk
  · exact ⟨hs.cfg, hs.mem, hs.flow, hs.screen, hs.ctrl⟩
  · exact hs

/-- Every transaction keeps the invariant: a STEP that fails leaves the state as it was (60_exceptions.md R120), and the
others write the timers, the keypad or nothing. -/
theorem transact_inv (a : Transaction) (hs : s.Inv) : (transact a s).2.Inv := by
  cases a with
  | step =>
    rcases transact_step_cases s with h | h
    · exact stepPreservesInvariant s _ hs h
    · rwa [h]
  | tick => exact ⟨hs.cfg, hs.mem, hs.flow, hs.screen, hs.ctrl⟩
  | keyDown k => exact keyTransaction_inv hs k true
  | keyUp k => exact keyTransaction_inv hs k false
  | framebufferRead | soundRead => exact hs

theorem transactAll_inv (as : List Transaction) (hs : s.Inv) : (transactAll as s).Inv := by
  induction as generalizing s with
  | nil => exact hs
  | cons a as ih => exact ih (transact_inv a hs)

/-- Settles O20, by induction on the list of transactions from what INIT leaves. -/
theorem reachableStatesMeetInvariant : Obligations.ReachableStatesMeetInvariant := by
  rintro s ⟨c, seed, rom, t, as, hc, hinit, rfl⟩
  exact transactAll_inv as (initCore_inv hc hinit)

end Sys2Proof.Machine

/-! SUPPORT. Memory as its accesses and INIT leave it (20_memory.md R38 to R41, R47), and stored bytes as a later fetch
reads them (20_memory.md R43, R50). -/

namespace Sys2Proof.Machine

variable {s t u : State} {a n k : Nat} {bs : List Byte} {x : Nibble} {c : Config} {f : BigFont}

/-! ## What writing bytes leaves in memory -/

/-- A new memory is all that `setMem` changes. -/
theorem frame_setMem (s : State) (m : Memory) : Frame [.mem] (fun _ => False) s (s.setMem m) := by
  refine ⟨fun p hp => ?_, fun r _ => setMem_reg s m r⟩
  cases p with
  | mem => exact absurd List.mem_cons_self hp
  | display => exact ⟨rfl, rfl⟩
  | _ => rfl

theorem frame_putBytesAt (s : State) (a : Nat) (bs : List Byte) :
    Frame [.mem] (fun _ => False) s (s.putBytesAt a bs) := by
  obtain ⟨m, hm⟩ := putBytesAt_eq s a bs
  exact hm ▸ frame_setMem s m

/-- Byte `k` of the bytes written at `a` is read back at `a + k`. -/
theorem byteAt_putBytesAt_add (hs : s.MemWf) (hr : a + bs.length ≤ memSize) (hk : k < bs.length) :
    (s.putBytesAt a bs).byteAt (a + k) = bs[k] := by
  rw [byteAt_putBytesAt s hs a bs hr, if_pos (Nat.le_add_right a k), Nat.add_sub_cancel_left,
    List.getD_eq_getElem bs _ hk]

theorem memSameOutside_putBytesAt (hs : s.MemWf) (hr : a + bs.length ≤ memSize) :
    MemSameOutside a bs.length s (s.putBytesAt a bs) := by
  intro b hb
  rw [byteAt_putBytesAt s hs a bs hr]
  split_ifs with hab
  · exact List.getD_eq_default _ _ (by omega)
  · rfl

/-! ## The checked accesses (20_memory.md R40, R41) -/

/-- A read inside the address space gives the bytes asked for, lowest address first. -/
theorem memRead_bytes (s : State) (h : a + n ≤ memSize) :
    ∃ bs, s.memRead a n = .ok bs ∧ bs.length = n ∧ ∀ k, k < n → bs[k]? = some (s.byteAt (a + k)) :=
  ⟨_, memRead_ok s (.inr h), by simp, fun k hk => by simp [hk]⟩

/-- A write inside the address space writes the bytes it names and keeps all the rest. -/
theorem memWrite_bytes (hs : s.MemWf) (h : a + bs.length ≤ memSize) :
    ∃ t, s.memWrite a bs = .ok t ∧ t.MemWf ∧ (∀ k, (hk : k < bs.length) → t.byteAt (a + k) = bs[k]) ∧
      MemSameOutside a bs.length s t ∧ Frame [.mem] (fun _ => False) s t :=
  ⟨_, memWrite_ok s (.inr h), memWf_putBytesAt s hs a bs h, fun _ hk => byteAt_putBytesAt_add hs h hk,
    memSameOutside_putBytesAt hs h, frame_putBytesAt s a bs⟩

/-- Settles O39: both accesses, by whether the range leaves the address space. -/
theorem memoryAccessesAreChecked : Obligations.MemoryAccessesAreChecked := by
  intro s a n hn
  refine ⟨memRead_bytes s, memRead_error s hn, ?_⟩
  rintro bs rfl
  exact ⟨memWrite_bytes, memWrite_error s hn⟩

/-! ## Stored bytes and the fetch -/

/-- Memory reads alike in two states with the same cells and configuration. -/
theorem byteAt_congr (hcfg : u.cfg = t.cfg) (hmem : u.mem = t.mem) (a : Nat) : u.byteAt a = t.byteAt a := by
  rw [State.byteAt, State.byteAt, hcfg, hmem]

/-- The byte at the lower address is the high byte of the word (20_memory.md R43). -/
@[simp] theorem wordAt_high (s : State) (a : Nat) : (s.wordAt a).extractLsb' 8 8 = s.byteAt a :=
  BitVec.extractLsb'_append_eq_left

@[simp] theorem wordAt_low (s : State) (a : Nat) : (s.wordAt a).extractLsb' 0 8 = s.byteAt (a + 1) :=
  BitVec.extractLsb'_append_eq_right

/-- FX33 stores the digits of VX from I on (42_index_memory.md R92). -/
theorem exec_ldB_byteAt (hs : s.MemWf) (h : exec (.ldB x) s = .next t) (hk : k < (bcdDigits (s.reg x)).length) :
    t.byteAt (s.i.toNat + k) = (bcdDigits (s.reg x))[k] := by
  obtain ⟨hr, rfl⟩ := exec_ldB_next h
  exact byteAt_putBytesAt_add hs hr hk

/-- FX55 stores V0 to VX from I on (42_index_memory.md R93). -/
theorem exec_ldMemV_byteAt (hs : s.MemWf) (h : exec (.ldMemV x) s = .next t) (hk : k < (s.regsUpTo x).length) :
    t.byteAt (s.i.toNat + k) = (s.regsUpTo x)[k] := by
  obtain ⟨hr, rfl⟩ := exec_ldMemV_next h
  rw [← length_regsUpTo s x] at hr
  rw [setI_byteAt, byteAt_putBytesAt_add hs hr hk]

/-- Settles O44: the fetched word is made of the bytes at PC and PC + 1, which read in `u` as the store left them. -/
theorem storedBytesAreFetched : Obligations.StoredBytesAreFetched := by
  intro i s t u bs hs hi h hcfg hmem hpc
  have hstored : ∀ k, (hk : k < bs.length) → u.byteAt (s.i.toNat + k) = bs[k] := by
    intro k hk
    rw [byteAt_congr hcfg hmem]
    rcases hi with ⟨x, rfl, rfl⟩ | ⟨x, rfl, rfl⟩
    · exact exec_ldMemV_byteAt hs h hk
    · exact exec_ldB_byteAt hs h hk
  refine ⟨_, fetch_ok u (Nat.add_le_add_right hpc 2), fun k hk => ⟨fun hfirst => ?_, fun hsecond => ?_⟩⟩
  · rw [wordAt_high, hfirst, hstored k hk]
  · rw [wordAt_low, hsecond, hstored k hk]

/-! ## The fonts of an allowed configuration (20_memory.md R39; 45_superchip.md R118) -/

/-- The font table, one list a glyph. -/
def fontGlyphs : List (List Byte) :=
  [[0xF0, 0x90, 0x90, 0x90, 0xF0], [0x20, 0x60, 0x20, 0x20, 0x70], [0xF0, 0x10, 0xF0, 0x80, 0xF0],
   [0xF0, 0x10, 0xF0, 0x10, 0xF0], [0x90, 0x90, 0xF0, 0x10, 0x10], [0xF0, 0x80, 0xF0, 0x10, 0xF0],
   [0xF0, 0x80, 0xF0, 0x90, 0xF0], [0xF0, 0x10, 0x20, 0x40, 0x40], [0xF0, 0x90, 0xF0, 0x90, 0xF0],
   [0xF0, 0x90, 0xF0, 0x10, 0xF0], [0xF0, 0x90, 0xF0, 0x90, 0x90], [0xE0, 0x90, 0xE0, 0x90, 0xE0],
   [0xF0, 0x80, 0x80, 0x80, 0xF0], [0xE0, 0x90, 0x90, 0x90, 0xE0], [0xF0, 0x80, 0xF0, 0x80, 0xF0],
   [0xF0, 0x80, 0xF0, 0x80, 0x80]]

theorem fontTable_eq_flatten : fontTable = fontGlyphs.flatten := rfl

theorem length_of_mem_fontGlyphs : ∀ l ∈ fontGlyphs, l.length = 5 := by decide

/-- In rows of one width laid end to end, entry `j` of row `g` is entry `w * g + j`. -/
theorem getD_flatten_rows {α : Type} (d : α) {w j : Nat} {rows : List (List α)} (hw : ∀ l ∈ rows, l.length = w)
    (hj : j < w) (g : Nat) : rows.flatten.getD (w * g + j) d = (rows.getD g []).getD j d := by
  induction rows generalizing g with
  | nil => rfl
  | cons l rows ih =>
    obtain ⟨rfl, hrows⟩ := List.forall_mem_cons.1 hw
    rw [List.flatten_cons]
    cases g with
    | zero => rw [Nat.mul_zero, Nat.zero_add, List.getD_append _ _ _ _ hj, List.getD_cons_zero]
    | succ g =>
      have hpast : l.length * (g + 1) + j = l.length + (l.length * g + j) := by rw [Nat.mul_succ]; omega
      rw [hpast, List.getD_append_right _ _ _ _ (Nat.le_add_right _ _), Nat.add_sub_cancel_left, ih hrows,
        List.getD_cons_succ]

theorem fontByte_inside (c : Config) (hk : k < 80) : fontByte c (c.fontBase.toNat + k) = fontTable.getD k 0 := by
  rw [fontByte, if_pos ⟨Nat.le_add_right _ k, by omega⟩, Nat.add_sub_cancel_left]

theorem fontByte_outside (h : a < c.fontBase.toNat ∨ c.fontBase.toNat + 80 ≤ a) : fontByte c a = 0 :=
  if_neg (by omega)

/-- The font table lies in the reserved low region. -/
theorem fontBase_le_of_wf (hc : c.wf = true) : c.fontBase.toNat + 80 ≤ 0x200 := by
  rw [Config.wf, Bool.and_eq_true, decide_eq_true_eq] at hc
  omega

/-- The large font lies in the reserved low region, clear of the font table. -/
theorem bigFont_place_of_wf (hc : c.wf = true) (hf : c.bigFont = some f) :
    f.base.toNat + 160 ≤ 0x200 ∧
      (f.base.toNat + 160 ≤ c.fontBase.toNat ∨ c.fontBase.toNat + 80 ≤ f.base.toNat) := by
  simp only [Config.wf, hf, Option.all_some, BigFont.wf, Bool.and_eq_true, decide_eq_true_eq] at hc
  exact ⟨hc.2.1.2, hc.2.2⟩

theorem resetByte_bigFont (hc : c.wf = true) (hf : c.bigFont = some f) (hk : k < 160) :
    resetByte c (f.base.toNat + k) = f.data.getD k 0 := by
  obtain ⟨hlow, -⟩ := bigFont_place_of_wf hc hf
  have hin : f.base.toNat + k < progBase ∧ f.base.toNat ≤ f.base.toNat + k ∧
      f.base.toNat + k < f.base.toNat + 160 := ⟨by unfold progBase; omega, by omega, by omega⟩
  simp only [resetByte, hf, if_pos hin, Nat.add_sub_cancel_left]

/-- Clear of the large font, or without one, an address starts as the font table leaves it. -/
theorem resetByte_eq_fontByte (h : ∀ f, c.bigFont = some f → a < f.base.toNat ∨ f.base.toNat + 160 ≤ a) :
    resetByte c a = fontByte c a := by
  unfold resetByte
  cases hf : c.bigFont with
  | none => rfl
  | some f =>
    have hout := h f hf
    exact if_neg (by omega)

theorem resetByte_glyph (hc : c.wf = true) {g j : Nat} (hg : g < 16) (hj : j < 5) :
    resetByte c (c.fontBase.toNat + 5 * g + j) = (fontGlyphs.getD g []).getD j 0 := by
  rw [Nat.add_assoc, resetByte_eq_fontByte, fontByte_inside c (by omega), fontTable_eq_flatten,
    getD_flatten_rows 0 length_of_mem_fontGlyphs hj]
  intro f hf
  obtain ⟨-, hclear⟩ := bigFont_place_of_wf hc hf
  omega

/-- Neither font reaches the program area. -/
theorem resetByte_program_area (hc : c.wf = true) (ha : 0x200 ≤ a) : resetByte c a = 0 := by
  have hfont := fontBase_le_of_wf hc
  rw [resetByte_eq_fontByte, fontByte_outside (.inr (by omega))]
  intro f hf
  obtain ⟨hlow, -⟩ := bigFont_place_of_wf hc hf
  omega

/-! ## INIT's program load (20_memory.md R47) -/

section
variable {rom : List Byte} (hlen : rom.length ≤ progMax)
include hlen

theorem load_in_range : progBase + rom.length ≤ memSize := Nat.add_le_add_left hlen progBase

theorem byteAt_load_program (c : Config) (seed : Nat) (hk : k < rom.length) :
    ((State.fresh c seed).load rom).byteAt (0x200 + k) = rom[k] :=
  byteAt_putBytesAt_add (fresh_memWf c seed) (load_in_range hlen) hk

/-- Outside the program's bytes memory stays as the zero fill and the fonts left it. -/
theorem byteAt_load_outside (c : Config) (seed : Nat) (ha : a < 0x200 ∨ 0x200 + rom.length ≤ a) :
    ((State.fresh c seed).load rom).byteAt a = resetByte c a :=
  memSameOutside_putBytesAt (fresh_memWf c seed) (load_in_range hlen) a ha

end

/-- Settles O2: the program is in place, and every other address reads its byte of `resetByte`, which the places of the
fonts decide. -/
theorem initLeavesMemory : Obligations.InitLeavesMemory := by
  intro c seed rom hc
  rcases initCore_cases c seed rom with ⟨hgt, herr⟩ | ⟨hlen, hok⟩
  · exact ⟨fun _ => herr, fun hle => absurd hle (Nat.not_le.2 hgt)⟩
  · have hfont := fontBase_le_of_wf hc
    refine ⟨fun hgt => absurd hlen (Nat.not_le.2 hgt), fun _ => ⟨_, hok, ?program, ?above, ?font, ?bigFont, ?low⟩⟩
    case program => exact fun k hk => byteAt_load_program hlen c seed hk
    case above =>
      intro a ha
      rw [byteAt_load_outside hlen c seed (.inr ha), resetByte_program_area hc (by omega)]
    case font =>
      intro g hg j hj
      rw [byteAt_load_outside hlen c seed (.inl (by omega))]
      exact resetByte_glyph hc hg hj
    case bigFont =>
      intro f hf k hk
      obtain ⟨hlow, -⟩ := bigFont_place_of_wf hc hf
      rw [byteAt_load_outside hlen c seed (.inl (by omega)), resetByte_bigFont hc hf hk]
    case low =>
      intro a ha hclear hbig
      rw [byteAt_load_outside hlen c seed (.inl ha), resetByte_eq_fontByte hbig, fontByte_outside hclear]

end Sys2Proof.Machine

/-! SUPPORT. The opcode map as a two-way table (30_encoding.md R52 to R60): what the decoder answers on the word of each
row, the word of what it answers, and the words it answers nothing on. -/

namespace Sys2Proof

open Sys2Proof.Machine (all_ite decode_wellFormed)

variable {m : Mode} {e : Bool} {w : Word} {i : Instr} {k : Nat}

/-! ## The families of rows, on words in the shape of their pattern (30_encoding.md R56) -/

theorem decode_system (h : opField w = 0x0) : decode m e w = decodeSystem m e w := by simp [decode, h]

@[simp] theorem decode_arith (m : Mode) (e : Bool) (x y n : Nibble) :
    decode m e (0x8#4 ++ x ++ y ++ n) = decodeArith x y n := by simp [decode]

@[simp] theorem decode_draw (m : Mode) (e : Bool) (x y n : Nibble) :
    decode m e (0xD#4 ++ x ++ y ++ n) = some (decodeDraw m x y n) := by simp [decode]

@[simp] theorem decode_key (m : Mode) (e : Bool) (x : Nibble) (nn : Byte) :
    decode m e (0xE#4 ++ x ++ nn) = decodeKey x nn := by simp [decode]

@[simp] theorem decode_misc (m : Mode) (e : Bool) (x : Nibble) (nn : Byte) :
    decode m e (0xF#4 ++ x ++ nn) = decodeMisc m e x nn := by simp [decode]

/-- Its Y keeps a word 00CN apart from every other row 0NNN. -/
theorem scroll_ne (n : Nibble) (h : yField w ≠ 0xC) : 0x00C#12 ++ n ≠ w := by
  rintro rfl
  exact h (yField_scroll n)

theorem decodeSystem_scroll (m : Mode) (e : Bool) (n : Nibble) :
    decodeSystem m e (0x00C#12 ++ n) = if m = .base then none else some (.scd n) := by
  rw [decodeSystem, if_neg (scroll_ne n (by decide)), if_neg (scroll_ne n (by decide))]
  simp

@[simp] theorem decode_scroll (m : Mode) (e : Bool) (n : Nibble) :
    decode m e (0x00C#12 ++ n) = if m = .base then none else some (.scd n) := by
  rw [decode_system (opField_scroll n), decodeSystem_scroll]

/-! ## The word of an instruction decodes to it -/

theorem extended_and_extra (h : (m == .extended && e) = true) : m = .extended ∧ e = true := by
  simpa using h

theorem decode_encode (h : i.wellFormed m e = true) : decode m e (encode i) = some i := by
  cases i with
  | cls | ret => cases m <;> rfl
  | low | high =>
    obtain rfl : m = .extended := eq_of_beq h
    rfl
  | scd n =>
    obtain rfl : m = .extended := eq_of_beq h
    exact decode_scroll ..
  | drwLarge x y =>
    obtain rfl : m = .extended := eq_of_beq h
    exact decode_draw ..
  | ldRV x | ldVR x =>
    obtain rfl : m = .extended := eq_of_beq h
    exact decode_misc ..
  | scr | scl | exit =>
    obtain ⟨rfl, rfl⟩ := extended_and_extra h
    rfl
  | ldHF x =>
    obtain ⟨rfl, rfl⟩ := extended_and_extra h
    exact decode_misc ..
  | ldReg x y | or x y | and x y | xor x y | add x y | sub x y | shr x y | subn x y | shl x y => exact decode_arith ..
  | drw x y n =>
    have hsmall : ¬ (m = .extended ∧ n = 0) := by simpa [Instr.wellFormed, imp_iff_not_or] using h
    rw [encode, decode_draw, decodeDraw, if_neg hsmall]
  | skp x | sknp x => exact decode_key ..
  | ldVDt x | ldVK x | ldDtV x | ldStV x | addI x | ldF x | ldB x | ldMemV x | ldVMem x =>
    rw [encode, decode_misc]
    cases m <;> rfl
  | _ => simp [decode, encode]

/-- Settles O6, row by row. -/
theorem decodeOfEncode : Obligations.DecodeOfEncode := fun _ _ _ => decode_encode

/-! ## What a word decodes to has that word -/

theorem eq_ofNat_of_toNat {a : Nibble} (h : a.toNat = k) : a = BitVec.ofNat 4 k := by
  rw [← h, BitVec.ofNat_toNat, BitVec.setWidth_eq]

theorem word_eq_addr_of_op (h : (opField w).toNat = k) : BitVec.ofNat 4 k ++ nnnField w = w := by
  rw [← eq_ofNat_of_toNat h, ← word_eq_addr]

theorem word_eq_byte_of_op (h : (opField w).toNat = k) : BitVec.ofNat 4 k ++ xField w ++ nnField w = w := by
  rw [← eq_ofNat_of_toNat h, ← word_eq_byte]

theorem word_eq_nibbles_of_op (h : (opField w).toNat = k) :
    BitVec.ofNat 4 k ++ xField w ++ yField w ++ nField w = w := by
  rw [← eq_ofNat_of_toNat h, ← word_eq_nibbles]

theorem some_all_encode (h : encode i = w) : (some i).all (encode · == w) = true := beq_iff_eq.2 h

theorem decodeSystem_all_encode (h : (opField w).toNat = 0) : (decodeSystem m e w).all (encode · == w) = true := by
  unfold decodeSystem
  refine all_ite (some_all_encode ·.symm) fun _ => all_ite (some_all_encode ·.symm) fun _ =>
    all_ite (fun _ => rfl) fun _ => all_ite (fun ⟨hx, hy⟩ => ?scroll) fun _ =>
    all_ite (some_all_encode ·.symm) fun _ => all_ite (some_all_encode ·.symm) fun _ =>
    all_ite (fun _ => rfl) fun _ => all_ite (some_all_encode ·.symm) fun _ =>
    all_ite (some_all_encode ·.symm) fun _ => all_ite (some_all_encode ·.symm) fun _ => rfl
  have hw := word_eq_nibbles_of_op h
  rw [hx, hy] at hw
  exact some_all_encode hw

theorem decodeArith_all_encode (x y n : Nibble) :
    (decodeArith x y n).all (encode · == 0x8#4 ++ x ++ y ++ n) = true := by
  unfold decodeArith
  split
  case h_10 => rfl
  all_goals
    rename_i hn
    obtain rfl := eq_ofNat_of_toNat hn
    exact some_all_encode rfl

theorem decodeKey_all_encode (x : Nibble) (nn : Byte) :
    (decodeKey x nn).all (encode · == 0xE#4 ++ x ++ nn) = true :=
  all_ite (fun h => some_all_encode (h ▸ rfl)) fun _ => all_ite (fun h => some_all_encode (h ▸ rfl)) fun _ => rfl

theorem decodeMiscBoth_all_encode (x : Nibble) (nn : Byte) :
    (decodeMiscBoth x nn).all (encode · == 0xF#4 ++ x ++ nn) = true := by
  unfold decodeMiscBoth
  iterate 9 refine all_ite (fun h => some_all_encode (h ▸ rfl)) fun _ => ?_
  rfl

theorem decodeMiscExtended_all_encode (e : Bool) (x : Nibble) (nn : Byte) :
    (decodeMiscExtended e x nn).all (encode · == 0xF#4 ++ x ++ nn) = true :=
  all_ite (fun h => some_all_encode (h ▸ rfl)) fun _ => all_ite (fun h => some_all_encode (h ▸ rfl)) fun _ =>
    all_ite (fun h => some_all_encode (h.1 ▸ rfl)) fun _ => rfl

theorem decodeMisc_all_encode (m : Mode) (e : Bool) (x : Nibble) (nn : Byte) :
    (decodeMisc m e x nn).all (encode · == 0xF#4 ++ x ++ nn) = true := by
  have hboth := decodeMiscBoth_all_encode x nn
  cases m with
  | base => exact hboth
  | extended =>
    unfold decodeMisc
    cases hrow : decodeMiscBoth x nn with
    | none => exact decodeMiscExtended_all_encode e x nn
    | some i => rwa [hrow] at hboth

theorem encode_decodeDraw (m : Mode) (x y n : Nibble) : encode (decodeDraw m x y n) = 0xD#4 ++ x ++ y ++ n := by
  unfold decodeDraw
  split_ifs with hlarge
  · rw [hlarge.2]; rfl
  · rfl

theorem decode_all_encode (m : Mode) (e : Bool) (w : Word) : (decode m e w).all (encode · == w) = true := by
  unfold decode
  -- Case `h_(k+1)` is the leading nibble `k`.
  split
  case h_1 hop => exact decodeSystem_all_encode hop
  case h_2 hop | h_3 hop | h_11 hop | h_12 hop => exact some_all_encode (word_eq_addr_of_op hop)
  case h_4 hop | h_5 hop | h_7 hop | h_8 hop | h_13 hop => exact some_all_encode (word_eq_byte_of_op hop)
  case h_6 hop | h_10 hop =>
    exact all_ite (fun hn => some_all_encode (Eq.trans (hn ▸ rfl) (word_eq_nibbles_of_op hop))) fun _ => rfl
  case h_9 hop => simpa only [word_eq_nibbles_of_op hop] using decodeArith_all_encode (xField w) (yField w) (nField w)
  case h_14 hop => exact some_all_encode ((encode_decodeDraw ..).trans (word_eq_nibbles_of_op hop))
  case h_15 hop => simpa only [word_eq_byte_of_op hop] using decodeKey_all_encode (xField w) (nnField w)
  case h_16 =>
    have hop : (opField w).toNat = 15 := by simp only [imp_false] at *; omega
    simpa only [word_eq_byte_of_op hop] using decodeMisc_all_encode m e (xField w) (nnField w)

/-- Settles O7: the instruction exists by `decode_wellFormed`, and its word is the one decoded. -/
theorem encodeOfDecode : Obligations.EncodeOfDecode := by
  intro m e w i h
  have hall := decode_all_encode m e w
  rw [h] at hall
  exact ⟨decode_wellFormed h, beq_iff_eq.1 hall⟩

/-! ## The words that decode to nothing (30_encoding.md R60) -/

theorem toNat_opField (w : Word) : (opField w).toNat = w.toNat / 0x1000 := by
  rw [opField, BitVec.extractLsb'_toNat, Nat.shiftRight_eq_div_pow]
  omega

theorem toNat_xField (w : Word) : (xField w).toNat = w.toNat / 0x100 % 0x10 := by
  rw [xField, BitVec.extractLsb'_toNat, Nat.shiftRight_eq_div_pow]

theorem toNat_yField (w : Word) : (yField w).toNat = w.toNat / 0x10 % 0x10 := by
  rw [yField, BitVec.extractLsb'_toNat, Nat.shiftRight_eq_div_pow]

theorem toNat_of_opField_zero (h : opField w = 0) : w.toNat = (nnnField w).toNat := by
  have hlt : (opField w).toNat = 0 := congrArg BitVec.toNat h
  rw [toNat_opField] at hlt
  rw [nnnField, BitVec.extractLsb'_toNat, Nat.shiftRight_zero]
  omega

/-- The words 00CN as a range of NNN. -/
theorem xField_yField_scroll_iff (h : opField w = 0) :
    xField w = 0x0 ∧ yField w = 0xC ↔ 0x0C0 ≤ (nnnField w).toNat ∧ (nnnField w).toNat ≤ 0x0CF := by
  have hlt := (nnnField w).isLt
  rw [← BitVec.toNat_inj, ← BitVec.toNat_inj, toNat_xField, toNat_yField, toNat_of_opField_zero h]
  bv_omega

/-- A row that is tried and gives an instruction, and the rows after it. -/
theorem ite_some_eq_none {c : Prop} [Decidable c] {a : Instr} {b : Option Instr} :
    (if c then some a else b) = none ↔ ¬ c ∧ b = none := by
  by_cases hc : c <;> simp [hc]

theorem decodeSystem_eq_none (h : opField w = 0) : decodeSystem m e w = none ↔
    nnnField w ≠ 0x0E0 ∧ nnnField w ≠ 0x0EE ∧
      ¬ (m = .extended ∧ ((0x0C0 ≤ (nnnField w).toNat ∧ (nnnField w).toNat ≤ 0x0CF) ∨
          nnnField w = 0x0FE ∨ nnnField w = 0x0FF ∨
          (e = true ∧ 0x0FB ≤ (nnnField w).toNat ∧ (nnnField w).toNat ≤ 0x0FD))) := by
  simp only [decodeSystem, ite_some_eq_none, ite_eq_left_iff, xField_yField_scroll_iff h]
  simp only [ne_eq, ← BitVec.toNat_inj, toNat_of_opField_zero h]
  cases m with
  | base => simp
  | extended =>
    cases e with
    | false => simp
    | true =>
      simp
      omega

theorem decodeArith_eq_none {x y n : Nibble} :
    decodeArith x y n = none ↔ (0x8 ≤ n.toNat ∧ n.toNat ≤ 0xD) ∨ n = 0xF := by
  unfold decodeArith
  split
  case h_10 =>
    simp only [imp_false] at *
    exact iff_of_true trivial (by bv_omega)
  all_goals
    rename_i hn
    obtain rfl := eq_ofNat_of_toNat hn
    simp

theorem decodeKey_eq_none {x : Nibble} {nn : Byte} : decodeKey x nn = none ↔ nn ≠ 0x9E ∧ nn ≠ 0xA1 := by
  simp only [decodeKey, ite_some_eq_none, and_true, ne_eq]

theorem decodeMiscBoth_eq_none {x : Nibble} {nn : Byte} : decodeMiscBoth x nn = none ↔
    nn ∉ ([0x07, 0x0A, 0x15, 0x18, 0x1E, 0x29, 0x33, 0x55, 0x65] : List Byte) := by
  simp only [decodeMiscBoth, ite_some_eq_none, and_true, List.mem_cons, List.not_mem_nil, not_or, not_false_eq_true]

theorem decodeMiscExtended_eq_none {x : Nibble} {nn : Byte} : decodeMiscExtended e x nn = none ↔
    ¬ (nn = 0x75 ∨ nn = 0x85 ∨ (e = true ∧ nn = 0x30)) := by
  simp only [decodeMiscExtended, ite_some_eq_none, and_true, not_or, and_comm (a := e = true)]

theorem decodeMisc_eq_none {x : Nibble} {nn : Byte} : decodeMisc m e x nn = none ↔
    nn ∉ ([0x07, 0x0A, 0x15, 0x18, 0x1E, 0x29, 0x33, 0x55, 0x65] : List Byte) ∧
      ¬ (m = .extended ∧ (nn = 0x75 ∨ nn = 0x85 ∨ (e = true ∧ nn = 0x30))) := by
  cases m with
  | base => simp only [decodeMisc, decodeMiscBoth_eq_none, reduceCtorEq, false_and, not_false_eq_true, and_true]
  | extended =>
    simp only [decodeMisc, Option.or_eq_none_iff, decodeMiscBoth_eq_none, decodeMiscExtended_eq_none, true_and]

/-- Settles O8, by the leading nibble and then the family's own rows. -/
theorem illegalWordsAreUnknown : Obligations.IllegalWordsAreUnknown := by
  intro m e w
  unfold decode
  split
  -- Case `h_(k+1)` is the leading nibble `k`.
  case h_1 hop => simp [eq_ofNat_of_toNat hop, decodeSystem_eq_none]
  case h_9 hop => simp [eq_ofNat_of_toNat hop, decodeArith_eq_none]
  case h_15 hop => simp [eq_ofNat_of_toNat hop, decodeKey_eq_none]
  case h_16 =>
    have hop : (opField w).toNat = 15 := by simp only [imp_false] at *; omega
    simp [eq_ofNat_of_toNat hop, decodeMisc_eq_none]
  all_goals
    rename_i hop
    simp [eq_ofNat_of_toNat hop]

/-! ## Gating, bytes and samples -/

/-- Settles O9: a row with an operand by the equation of its family, a closed word by evaluating its row. -/
theorem superChipRowsAreGated : Obligations.SuperChipRowsAreGated := by
  refine ⟨fun e x y n => ?base, fun m x => ?withoutExtra, fun x => ?withExtra⟩
  case base =>
    exact ⟨decode_scroll .., rfl, rfl, rfl, rfl, rfl, decode_misc .., decode_misc .., decode_misc ..,
      decode_draw ..⟩
  case withoutExtra => cases m <;> exact ⟨rfl, rfl, rfl, decode_misc ..⟩
  case withExtra => exact ⟨rfl, rfl, rfl, decode_misc ..⟩

/-- Settles O5: nine closed words. -/
theorem sampleWordsDecode : Obligations.SampleWordsDecode := by
  unfold Obligations.SampleWordsDecode
  decide

theorem decodeBytes_of_some {hi lo : Byte} (rest : List Byte) (h : decode m e (wordOfBytes hi lo) = some i) :
    decodeBytes m e (hi :: lo :: rest) = .ok (i, rest) := by
  simp [decodeBytes, h]

theorem decodeBytes_of_none {hi lo : Byte} (rest : List Byte) (h : decode m e (wordOfBytes hi lo) = none) :
    decodeBytes m e (hi :: lo :: rest) = .error (.unknown (wordOfBytes hi lo)) := by
  simp [decodeBytes, h]

/-- Settles O10, by whether the word of the two bytes decodes. -/
theorem decoderConsumesTwoBytes : Obligations.DecoderConsumesTwoBytes := by
  intro m e hi lo rest
  refine ⟨fun i => decodeBytes_of_some rest, decodeBytes_of_none rest, fun i r h => ?_⟩
  cases hd : decode m e (wordOfBytes hi lo) with
  | none =>
    rw [decodeBytes_of_none rest hd] at h
    cases h
  | some j =>
    rw [decodeBytes_of_some rest hd] at h
    cases h
    rfl

end Sys2Proof

/-! SUPPORT. The fetch and the dispatch of a running core (30_encoding.md R63, R64). -/

namespace Sys2Proof.Machine

variable {s : State} {i : Instr}

/-- A running core's STEP goes straight to the fetch. -/
theorem step_of_running (h : s.ctrl = .running) : step s = s.fetchExecute := by
  rw [step_eq, State.poll, h]

theorem step_of_decoded (hctrl : s.ctrl = .running) (hpc : s.pc.toNat ≤ 0xFFE)
    (hd : decodeIn s.cfg (s.wordAt s.pc.toNat) = some i) : step s = exec i s.advance := by
  rw [step_of_running hctrl, State.fetchExecute, fetch_ok s (Nat.add_le_add_right hpc 2), orRaise_ok, hd]

/-- Settles O11: the two bytes at PC are the word there. -/
theorem stepRunsDecodedInstruction : Obligations.StepRunsDecodedInstruction := fun _ _ => step_of_decoded

/-- The first address above 0xFFF that a fetch above 0xFFE meets. -/
theorem fetch_outside (h : 0xFFE < s.pc.toNat) :
    s.fetch = .error (.outOfBoundsAccess (if 0xFFF < s.pc.toNat then s.pc.toNat else 0x1000)) := by
  have hfirst : max s.pc.toNat memSize = if 0xFFF < s.pc.toNat then s.pc.toNat else 0x1000 := by
    unfold memSize
    split_ifs <;> omega
  rw [fetch_error s (Nat.add_lt_add_right h 2), hfirst]

/-- Settles O12, by whether the word at PC lies inside memory. -/
theorem fetchReadsWordOrFails : Obligations.FetchReadsWordOrFails := by
  intro s
  refine ⟨fun hpc => ?inside, fun hpc => ?outside⟩
  case inside =>
    exact ⟨_, fetch_ok s (Nat.add_le_add_right hpc 2), wordAt_high s _, wordAt_low s _,
      fun i hctrl hd => step_of_decoded hctrl hpc hd⟩
  case outside =>
    refine ⟨fetch_outside hpc, fun hctrl => ?_⟩
    rw [step_of_running hctrl, State.fetchExecute, fetch_outside hpc, orRaise_error]

end Sys2Proof.Machine

/-! SUPPORT. Control transfer and conditional skips (40_flow.md R66 to R74): what each of them answers, the frame of a
new PC, and the target of a jump as a number. -/

namespace Sys2Proof.Machine

variable {s : State} {l : List Word} {a : Word} {c : Bool} {p : Prop}

/-! ## Frames -/

theorem frame_setPc (s : State) (a : Word) : Frame [.pc] (fun _ => False) s (s.setPc a) := by
  refine ⟨fun p hp => ?_, fun r _ => setPc_reg s a r⟩
  cases p with
  | pc => exact absurd List.mem_cons_self hp
  | display => exact ⟨rfl, rfl⟩
  | mem => exact fun _ => rfl
  | _ => rfl

theorem frame_setStack_setPc (s : State) (l : List Word) (a : Word) :
    Frame [.pc, .stack] (fun _ => False) s ((s.setStack l).setPc a) := by
  obtain ⟨hparts, hregs⟩ := frame_setPc (s.setStack l) a
  refine ⟨fun p hp => ?_, hregs⟩
  have hsame := hparts p fun hpc => hp (List.mem_append_left [Part.stack] hpc)
  cases p with
  | stack => exact absurd (by decide) hp
  | _ => exact hsame

/-! ## Targets as numbers -/

theorem toNat_zextAddr (nnn : Addr) : (zextAddr nnn).toNat = nnn.toNat :=
  BitVec.toNat_setWidth_of_le (by decide)

theorem toNat_zextByte (b : Byte) : (zextByte b).toNat = b.toNat :=
  BitVec.toNat_setWidth_of_le (by decide)

/-- The sum of BNNN does not wrap: a 12-bit and an 8-bit number fit in 16 bits together (40_flow.md R70). -/
theorem toNat_jumpTarget (s : State) (nnn : Addr) :
    (s.jumpTarget nnn).toNat = nnn.toNat + (s.reg (jumpReg s.cfg.quirks nnn)).toNat := by
  have haddr := nnn.isLt
  have hbyte := (s.reg (jumpReg s.cfg.quirks nnn)).isLt
  rw [State.jumpTarget, BitVec.toNat_add, toNat_zextAddr, toNat_zextByte]
  omega

/-! ## Jumps -/

/-- Settles O25: PC becomes the address as it stands. -/
theorem jumpSetsPc : Obligations.JumpSetsPc := fun nnn =>
  ⟨fun _ _ => decode_encode (i := .jp nnn) rfl, fun s => ⟨_, rfl, toNat_zextAddr nnn, frame_setPc s _⟩⟩

/-- BNNN jumps by the register its quirk selects, whichever it is. -/
theorem exec_jpOff (nnn : Addr) {r : Nibble} (hr : jumpReg s.cfg.quirks nnn = r) :
    ∃ t, exec (.jpOff nnn) s = .next t ∧ t.pc.toNat = nnn.toNat + (s.reg r).toNat ∧ Frame [.pc] (fun _ => False) s t :=
  ⟨_, rfl, hr ▸ toNat_jumpTarget s nnn, frame_setPc s _⟩

/-- Settles O27, by the register that `jump_uses_vx` selects and the exact sum `toNat_jumpTarget`. -/
theorem jumpWithOffsetIsExact : Obligations.JumpWithOffsetIsExact := fun nnn =>
  ⟨fun _ _ => decode_encode (i := .jpOff nnn) rfl, fun s =>
    ⟨fun hv0 => exec_jpOff nnn (by simp [jumpReg, hv0]), fun hvx => exec_jpOff nnn (by simp [jumpReg, hvx])⟩⟩

/-! ## Call and return -/

theorem exec_ret_of_append (h : s.stack = l ++ [a]) : exec .ret s = .next ((s.setStack l).setPc a) := by
  have hpop : s.pop = .ok (a, s.setStack l) := by simp [State.pop, h]
  rw [exec, execRet, hpop, orRaise_ok]

theorem exec_ret_of_nil (h : s.stack = []) : exec .ret s = .fault (.stackUnderflow (s.pc - 2)) := by
  have hpop : s.pop = .error (.stackUnderflow (s.pc - 2)) := by simp [State.pop, h, State.pc0]
  rw [exec, execRet, hpop, orRaise_error]

theorem exec_call_of_room (nnn : Addr) (h : s.stack.length ≠ 16) :
    exec (.call nnn) s = .next ((s.setStack (s.stack ++ [s.pc])).setPc (zextAddr nnn)) := by
  rw [exec, execCall, State.push, if_neg h, orRaise_ok]

theorem exec_call_of_full (nnn : Addr) (h : s.stack.length = 16) :
    exec (.call nnn) s = .fault (.stackOverflow (s.pc - 2)) := by
  rw [exec, execCall, State.push, if_pos h, orRaise_error, State.pc0]

/-- RET on a stack whose top is known (40_flow.md R67). -/
theorem exec_ret_top (h : s.stack = l ++ [a]) :
    ∃ t, exec .ret s = .next t ∧ t.pc = a ∧ t.stack = l ∧ Frame [.pc, .stack] (fun _ => False) s t :=
  ⟨_, exec_ret_of_append h, rfl, rfl, frame_setStack_setPc s l a⟩

/-- Settles O24, by whether the stack is empty. -/
theorem returnTakesTopOfStack : Obligations.ReturnTakesTopOfStack :=
  ⟨fun _ _ => decode_encode (i := .ret) rfl, fun _ => ⟨fun _ _ => exec_ret_top, exec_ret_of_nil⟩⟩

/-- Settles O26, by whether the stack has room. -/
theorem callPushesReturnAddress : Obligations.CallPushesReturnAddress := by
  refine fun nnn => ⟨fun _ _ => decode_encode (i := .call nnn) rfl, fun s => ⟨fun hroom => ?_, exec_call_of_full nnn⟩⟩
  exact ⟨_, exec_call_of_room nnn hroom.ne, toNat_zextAddr nnn, rfl, frame_setStack_setPc s _ _⟩

/-- Settles O31: the CALL left its return address on top of the caller's stack, and RET finds it there. -/
theorem returnUndoesCall : Obligations.ReturnUndoesCall := by
  intro nnn s t u hcall hstack
  obtain ⟨-, rfl⟩ := exec_call_next hcall
  exact exec_ret_top hstack

/-! ## Conditional skips -/

/-- What an instruction that skips under `c` answers, `p` being its condition as the rule words it. -/
theorem next_skipIf [Decidable p] (s : State) (hc : c = true ↔ p) :
    ∃ t, (.next (s.skipIf c) : Result) = .next t ∧ t.pc = (if p then s.pc + 2 else s.pc) ∧
      Frame [.pc] (fun _ => False) s t := by
  refine ⟨_, rfl, ?_, ?_⟩ <;> rw [skipIf_eq]
  · exact if_congr hc rfl rfl
  · exact frame_setPc s _

/-- The same for a skip that `p` keeps from being taken. -/
theorem next_skipIf_not [Decidable p] (s : State) (hc : c = true ↔ ¬ p) :
    ∃ t, (.next (s.skipIf c) : Result) = .next t ∧ t.pc = (if p then s.pc else s.pc + 2) ∧
      Frame [.pc] (fun _ => False) s t := by
  simpa only [ite_not] using next_skipIf s hc

/-- Settles O28, each skip by its own test of VX against NN. -/
theorem immediateSkips : Obligations.ImmediateSkips := fun x nn =>
  ⟨fun _ _ => ⟨decode_encode (i := .seImm x nn) rfl, decode_encode (i := .sneImm x nn) rfl⟩,
    fun s => ⟨next_skipIf s beq_iff_eq, next_skipIf_not s bne_iff_ne⟩⟩

/-- The illegal neighbours of the register skips (30_encoding.md R60). -/
theorem decode_registerSkip_eq_none {op : Nibble} (hop : op = 0x5 ∨ op = 0x9) (m : Mode) (e : Bool) (x y : Nibble)
    {n : Nibble} (hn : n ≠ 0) : decode m e (op ++ x ++ y ++ n) = none :=
  (illegalWordsAreUnknown m e _).2 (.inr (.inl (by simpa using ⟨hop, hn⟩)))

/-- Settles O29: the rows, their illegal neighbours, and the two skips. -/
theorem registerSkips : Obligations.RegisterSkips := by
  refine fun x y => ⟨fun m e => ⟨?_, ?_, fun n hn => ⟨?_, ?_⟩⟩, fun s => ⟨?_, ?_⟩⟩
  · exact decode_encode (i := .seReg x y) rfl
  · exact decode_encode (i := .sneReg x y) rfl
  · exact decode_registerSkip_eq_none (.inl rfl) m e x y hn
  · exact decode_registerSkip_eq_none (.inr rfl) m e x y hn
  · exact next_skipIf s beq_iff_eq
  · exact next_skipIf_not s bne_iff_ne

end Sys2Proof.Machine

/-! SUPPORT. Register loads, arithmetic, logic, shifts and random (41_alu.md R75 to R87): the frame of each way to write a
result, and the results and flags as numbers. -/

namespace Sys2Proof.Machine

variable {s : State} {x y : Nibble} {b : Byte} {i : Instr} {f : Bool → Bool → Bool}

/-! ## Frames -/

/-- New V registers change no other part, and of the registers those that read differently. -/
theorem frame_setV (s : State) (v : Vector Byte 16) {rs : Nibble → Prop}
    (h : ∀ r, ¬ rs r → (s.setV v).reg r = s.reg r) : Frame [] rs s (s.setV v) := by
  refine ⟨fun p _ => ?_, h⟩
  cases p with
  | display => exact ⟨rfl, rfl⟩
  | mem => exact fun _ => rfl
  | _ => rfl

theorem frame_setReg (s : State) (x : Nibble) (b : Byte) : Frame [] (fun r => r = x) s (s.setReg x b) :=
  frame_setV s _ fun _ hr => reg_setReg_ne s b hr

theorem frame_setRegFlag (s : State) (x : Nibble) (b : Byte) (c : Bool) :
    Frame [] (fun r => r = x ∨ r = 0xF) s (s.setRegFlag x b c) := by
  refine frame_setV s _ fun r hr => ?_
  obtain ⟨hrx, hrf⟩ := not_or.1 hr
  exact (setRegFlag_reg s x r b c).trans ((if_neg hrf).trans (if_neg hrx))

theorem frame_setRng_setReg (s : State) (g : RngState) (x : Nibble) (b : Byte) :
    Frame [.rng] (fun r => r = x) s ((s.setRng g).setReg x b) := by
  obtain ⟨hparts, hregs⟩ := frame_setReg (s.setRng g) x b
  refine ⟨fun p hp => ?_, hregs⟩
  have hsame := hparts p List.not_mem_nil
  cases p with
  | rng => exact absurd List.mem_cons_self hp
  | _ => exact hsame

/-! ## Loads, immediate add and random -/

/-- Settles O32: each of the three writes VX alone. -/
theorem loadsAndImmediateAdd : Obligations.LoadsAndImmediateAdd := by
  refine fun x y nn => ⟨fun _ _ => ⟨?_, ?_, ?_⟩, fun s => ⟨?_, ?_, ?_⟩⟩
  · exact decode_encode (i := .ldImm x nn) rfl
  · exact decode_encode (i := .addImm x nn) rfl
  · exact decode_encode (i := .ldReg x y) rfl
  · exact ⟨_, rfl, reg_setReg_same .., frame_setReg ..⟩
  · refine ⟨_, rfl, ?_, frame_setReg ..⟩
    rw [reg_setReg_same, BitVec.toNat_add]
  · exact ⟨_, rfl, reg_setReg_same .., frame_setReg ..⟩

/-- Settles O36: the advance of the source does not look at NN. -/
theorem randomIsMaskedAndAdvances : Obligations.RandomIsMaskedAndAdvances := fun x nn =>
  ⟨fun _ _ => decode_encode (i := .rnd x nn) rfl, fun _ =>
    ⟨_, rfl, reg_setReg_same .., rfl, frame_setRng_setReg ..⟩⟩

/-! ## A result and its flag (10_state.md R18) -/

theorem setRegFlag_reg_dest (s : State) (b : Byte) (c : Bool) (h : x ≠ 0xF) : (s.setRegFlag x b c).reg x = b := by
  rw [setRegFlag_reg, if_neg (show x ≠ vf from h), if_pos rfl]

theorem setRegFlag_reg_flag (s : State) (x : Nibble) (b : Byte) (c : Bool) :
    (s.setRegFlag x b c).reg 0xF = flagByte c :=
  setFlag_reg_vf _ c

theorem flagByte_decide (p : Prop) [Decidable p] : flagByte (decide p) = if p then 1 else 0 :=
  if_congr decide_eq_true_iff rfl rfl

theorem toNat_flagByte (c : Bool) : (flagByte c).toNat = c.toNat := by
  cases c <;> rfl

/-! ## Addition and subtraction -/

theorem toNat_byte_sub (a b : Byte) : (a - b).toNat = (256 + a.toNat - b.toNat) % 256 := by
  have hb := b.isLt
  rw [BitVec.toNat_sub]
  omega

/-- What a form answers that writes a result and, as its flag, whether `p` holds. -/
theorem next_setRegFlag_decide (s : State) (x : Nibble) {n : Nat} (p : Prop) [Decidable p] (h : b.toNat = n) :
    ∃ t, (.next (s.setRegFlag x b (decide p)) : Result) = .next t ∧ (x ≠ 0xF → (t.reg x).toNat = n) ∧
      t.reg 0xF = (if p then 1 else 0) ∧ Frame [] (fun r => r = x ∨ r = 0xF) s t := by
  refine ⟨_, rfl, fun hx => ?_, ?_, frame_setRegFlag ..⟩
  · rw [setRegFlag_reg_dest _ _ _ hx, h]
  · rw [setRegFlag_reg_flag, flagByte_decide]

/-- Settles O34: each form writes its result and then its flag, both computed from the old values. -/
theorem addAndSubtractWithFlag : Obligations.AddAndSubtractWithFlag := by
  refine fun x y => ⟨fun _ _ => ⟨?_, ?_, ?_⟩, ?_⟩
  · exact decode_encode (i := .add x y) rfl
  · exact decode_encode (i := .sub x y) rfl
  · exact decode_encode (i := .subn x y) rfl
  · rintro s a b rfl rfl
    exact ⟨next_setRegFlag_decide s x _ (BitVec.toNat_add ..), next_setRegFlag_decide s x _ (toNat_byte_sub ..),
      next_setRegFlag_decide s x _ (toNat_byte_sub ..)⟩

/-! ## Shifts -/

theorem toNat_byte_shiftRight_one (b : Byte) : (b >>> 1).toNat = b.toNat / 2 := by
  rw [BitVec.toNat_ushiftRight, Nat.shiftRight_eq_div_pow, Nat.pow_one]

theorem toNat_byte_shiftLeft_one (b : Byte) : (b <<< 1).toNat = 2 * b.toNat % 256 := by
  rw [BitVec.toNat_shiftLeft, Nat.shiftLeft_eq, Nat.pow_one, Nat.mul_comm]

theorem toNat_shiftedOutRight (b : Byte) : (shiftedOutRight b).toNat = b.toNat % 2 := by
  rw [shiftedOutRight, BitVec.getLsbD, Nat.toNat_testBit, Nat.pow_zero, Nat.div_one]

theorem toNat_shiftedOutLeft (b : Byte) : (shiftedOutLeft b).toNat = b.toNat / 128 := by
  have hb := b.isLt
  rw [shiftedOutLeft, BitVec.getLsbD, Nat.toNat_testBit]
  omega

/-- Settles O35: the source is `State.shiftSource`, whichever register the quirk selects. -/
theorem shiftsWithQuirk : Obligations.ShiftsWithQuirk := by
  refine fun x y => ⟨fun _ _ => ⟨?_, ?_⟩, ?_⟩
  · exact decode_encode (i := .shr x y) rfl
  · exact decode_encode (i := .shl x y) rfl
  · rintro s src rfl
    rw [← State.shiftSource]
    refine ⟨⟨_, rfl, fun hx => ?_, ?_, frame_setRegFlag ..⟩, ⟨_, rfl, fun hx => ?_, ?_, frame_setRegFlag ..⟩⟩
    · rw [setRegFlag_reg_dest _ _ _ hx, toNat_byte_shiftRight_one]
    · rw [setRegFlag_reg_flag, toNat_flagByte, toNat_shiftedOutRight]
    · rw [setRegFlag_reg_dest _ _ _ hx, toNat_byte_shiftLeft_one]
    · rw [setRegFlag_reg_flag, toNat_flagByte, toNat_shiftedOutLeft]

/-! ## Logic (41_alu.md R79 to R81) -/

theorem setRegLogic_of_keep (h : s.cfg.quirks.logicResetsVf = false) : s.setRegLogic x b = s.setReg x b :=
  if_neg (Bool.eq_false_iff.1 h)

/-- Under `logic_resets_vf` a logic form writes VF as a form does whose flag is 0. -/
theorem setRegLogic_of_reset (h : s.cfg.quirks.logicResetsVf = true) : s.setRegLogic x b = s.setRegFlag x b false :=
  if_pos h

/-- The result of a logic form, bit by bit. -/
theorem exec_logic (h : i = .or x y ∧ f = or ∨ i = .and x y ∧ f = and ∨ i = .xor x y ∧ f = xor) (s : State) :
    ∃ b, exec i s = .next (s.setRegLogic x b) ∧ ∀ k, b.getLsbD k = f ((s.reg x).getLsbD k) ((s.reg y).getLsbD k) := by
  rcases h with ⟨rfl, rfl⟩ | ⟨rfl, rfl⟩ | ⟨rfl, rfl⟩
  · exact ⟨_, rfl, fun _ => BitVec.getLsbD_or⟩
  · exact ⟨_, rfl, fun _ => BitVec.getLsbD_and⟩
  · exact ⟨_, rfl, fun _ => BitVec.getLsbD_xor⟩

/-- Settles O33: the bits by `exec_logic`, the rest by the quirk. -/
theorem logicWithQuirk : Obligations.LogicWithQuirk := by
  refine fun x y => ⟨fun _ _ => ⟨?_, ?_, ?_⟩, fun s i f h => ?_⟩
  · exact decode_encode (i := .or x y) rfl
  · exact decode_encode (i := .and x y) rfl
  · exact decode_encode (i := .xor x y) rfl
  · obtain ⟨b, hexec, hbits⟩ := exec_logic h s
    refine ⟨_, hexec, fun hkeep => ?keep, fun hreset => ?reset⟩
    case keep =>
      rw [setRegLogic_of_keep hkeep, reg_setReg_same]
      exact ⟨fun k _ => hbits k, frame_setReg ..⟩
    case reset =>
      rw [setRegLogic_of_reset hreset]
      refine ⟨fun hx k _ => ?_, setRegFlag_reg_flag .., frame_setRegFlag ..⟩
      rw [setRegFlag_reg_dest _ _ _ hx, hbits]

end Sys2Proof.Machine

/-! SUPPORT. The index register and the accesses through it (42_index_memory.md R89 to R94): the frame of a new I, the
addresses as numbers, and what each store and the load answer inside and outside the address space. -/

namespace Sys2Proof.Machine

variable {s t u : State} {x : Nibble} {ps : List Part} {rs : Nibble → Prop}

/-! ## Frames -/

theorem frame_refl (s : State) (rs : Nibble → Prop) : Frame [] rs s s := frame_setV s s.v fun _ _ => rfl

/-- Writing I as well adds the index register to what changed. -/
theorem Frame.setI (h : Frame ps rs s t) (a : Word) : Frame (ps ++ [.index]) rs s (t.setI a) := by
  obtain ⟨hparts, hregs⟩ := h
  refine ⟨fun p hp => ?_, hregs⟩
  have hsame := hparts p fun hps => hp (List.mem_append_left _ hps)
  cases p with
  | index => exact absurd (List.mem_append_right _ List.mem_cons_self) hp
  | _ => exact hsame

theorem frame_setI (s : State) (a : Word) : Frame [.index] (fun _ => False) s (s.setI a) := (frame_refl s _).setI a

theorem frame_setV_putBytes (s : State) {bs : List Byte} (h : bs.length = x.toNat + 1) :
    Frame [] (fun r => r.toNat ≤ x.toNat) s (s.setV (putBytes bs 0 s.v)) :=
  frame_setV s _ fun r => (setV_putBytes_reg_or s r h).resolve_right

/-! ## Addresses as numbers -/

theorem toNat_lowNibble (s : State) (x : Nibble) : (s.lowNibble x).toNat = (s.reg x &&& 0x0F).toNat := by
  rw [State.lowNibble, BitVec.toNat_setWidth, BitVec.toNat_and]
  exact (Nat.and_two_pow_sub_one_eq_mod _ 4).symm

/-- In an allowed configuration the sum of FX29 does not wrap: the font table ends below 0x200. -/
theorem toNat_glyphAddr (hc : s.cfg.wf = true) :
    (s.glyphAddr x).toNat = s.cfg.fontBase.toNat + 5 * (s.reg x &&& 0x0F).toNat := by
  have hfont := fontBase_le_of_wf hc
  have hdigit := (s.lowNibble x).isLt
  rw [State.glyphAddr, BitVec.toNat_add, BitVec.toNat_ofNat, ← toNat_lowNibble]
  omega

theorem toNat_indexAfter (s : State) (x : Nibble) :
    (s.indexAfter x).toNat =
      if s.cfg.quirks.loadStoreIncrementsI = true then (s.i.toNat + x.toNat + 1) % 65536 else s.i.toNat := by
  unfold State.indexAfter
  split_ifs
  · rw [BitVec.toNat_add, BitVec.toNat_ofNat, Nat.add_mod_mod, Nat.add_assoc]
  · rfl

/-! ## Writes of I -/

/-- Settles O37: each form writes I alone, and only the sum of FX29 needs the configuration to be exact. -/
theorem indexRegisterWrites : Obligations.IndexRegisterWrites := by
  refine fun x nnn => ⟨fun _ _ => ⟨?_, ?_, ?_⟩, fun s => ⟨?_, ?_, fun hc => ?_⟩⟩
  · exact decode_encode (i := .ldI nnn) rfl
  · exact decode_encode (i := .addI x) rfl
  · exact decode_encode (i := .ldF x) rfl
  · exact ⟨_, rfl, toNat_zextAddr nnn, frame_setI ..⟩
  · refine ⟨_, rfl, ?_, frame_setI ..⟩
    rw [setI_i, BitVec.toNat_add, toNat_zextByte]
  · exact ⟨_, rfl, toNat_glyphAddr hc, frame_setI ..⟩

/-! ## Decimal digits (42_index_memory.md R92) -/

theorem exec_ldB_inside (h : s.i.toNat + 3 ≤ memSize) :
    exec (.ldB x) s = .next (s.putBytesAt s.i.toNat (bcdDigits (s.reg x))) := by
  rw [exec, execLdB, memWrite_ok s (.inr h), orRaise_ok]

theorem exec_ldB_outside (h : memSize < s.i.toNat + 3) :
    exec (.ldB x) s = .fault (.outOfBoundsAccess (max s.i.toNat memSize)) := by
  rw [exec, execLdB, memWrite_error (bs := bcdDigits (s.reg x)) s (Nat.succ_ne_zero 2) h, orRaise_error]

/-- Where FX33 answers, digit `k` stands at `I + k`; no digit is greater than VX, so each is exact in its byte. -/
theorem exec_ldB_digit {k n : Nat} (hs : s.MemWf) (h : exec (.ldB x) s = .next t)
    (hk : (bcdDigits (s.reg x))[k]? = some (BitVec.ofNat 8 n)) (hn : n ≤ (s.reg x).toNat) :
    (t.byteAt (s.i.toNat + k)).toNat = n := by
  obtain ⟨hlen, hdigit⟩ := List.getElem?_eq_some_iff.1 hk
  rw [exec_ldB_byteAt hs h hlen, hdigit, BitVec.toNat_ofNat, Nat.mod_eq_of_lt (hn.trans_lt (s.reg x).isLt)]

/-- Settles O40, by whether the three digits lie inside memory. -/
theorem decimalDigitsAreStored : Obligations.DecimalDigitsAreStored := by
  refine fun x => ⟨fun _ _ => decode_encode (i := .ldB x) rfl, fun s => ⟨fun hs h => ?inside, fun h => ?outside⟩⟩
  case inside =>
    have hrange : s.i.toNat + 3 ≤ memSize := Nat.add_le_add_right h 1
    have hexec := exec_ldB_inside (x := x) hrange
    refine ⟨_, hexec, ?hundreds, ?tens, ?ones, ?rest, frame_putBytesAt ..⟩
    case hundreds => exact exec_ldB_digit (k := 0) hs hexec rfl (Nat.div_le_self ..)
    case tens => exact exec_ldB_digit (k := 1) hs hexec rfl ((Nat.mod_le ..).trans (Nat.div_le_self ..))
    case ones => exact exec_ldB_digit (k := 2) hs hexec rfl (Nat.mod_le ..)
    case rest => exact memSameOutside_putBytesAt (bs := bcdDigits (s.reg x)) hs hrange
  case outside => exact exec_ldB_outside (Nat.add_lt_add_right h 1)

/-! ## Register dump (42_index_memory.md R93) -/

theorem exec_ldMemV_inside (h : s.i.toNat + (x.toNat + 1) ≤ memSize) :
    exec (.ldMemV x) s = .next ((s.putBytesAt s.i.toNat (s.regsUpTo x)).setI (s.indexAfter x)) := by
  rw [← length_regsUpTo s x] at h
  rw [exec, execLdMemV, memWrite_ok s (.inr h), orRaise_ok]

theorem exec_ldMemV_outside (h : memSize < s.i.toNat + (x.toNat + 1)) :
    exec (.ldMemV x) s = .fault (.outOfBoundsAccess (max s.i.toNat memSize)) := by
  rw [← length_regsUpTo s x] at h
  rw [exec, execLdMemV, memWrite_error s (length_regsUpTo s x ▸ Nat.succ_ne_zero _) h, orRaise_error]

/-- Where a dump answers, register `k` up to X stands at `I + k`. -/
theorem exec_ldMemV_reg {k : Nibble} (hs : s.MemWf) (h : exec (.ldMemV x) s = .next t) (hk : k.toNat ≤ x.toNat) :
    t.byteAt (s.i.toNat + k.toNat) = s.reg k := by
  have hlen : k.toNat < (s.regsUpTo x).length := by
    rw [length_regsUpTo]
    exact Nat.lt_succ_of_le hk
  rw [exec_ldMemV_byteAt hs h hlen, ← List.getD_eq_getElem _ 0 hlen, getD_regsUpTo s x k hk]

/-- Settles O41, by whether the dumped bytes lie inside memory. -/
theorem registerDump : Obligations.RegisterDump := by
  refine fun x => ⟨fun _ _ => decode_encode (i := .ldMemV x) rfl, fun s => ⟨fun hs h => ?inside, fun h => ?outside⟩⟩
  case inside =>
    have hrange : s.i.toNat + (x.toNat + 1) ≤ memSize := Nat.add_le_add_right h 1
    have hexec := exec_ldMemV_inside hrange
    refine ⟨_, hexec, fun _ => exec_ldMemV_reg hs hexec, ?_, toNat_indexAfter s x, (frame_putBytesAt ..).setI _⟩
    rw [← length_regsUpTo s x] at hrange ⊢
    exact memSameOutside_putBytesAt hs hrange
  case outside => exact exec_ldMemV_outside (Nat.add_lt_add_right h 1)

/-! ## Register load (42_index_memory.md R94) -/

theorem exec_ldVMem_inside (h : s.i.toNat + (x.toNat + 1) ≤ memSize) :
    ∃ t, exec (.ldVMem x) s = .next t ∧
      (∀ k : Nibble, k.toNat ≤ x.toNat → t.reg k = s.byteAt (s.i.toNat + k.toNat)) ∧ t.i = s.indexAfter x ∧
      Frame [.index] (fun r => r.toNat ≤ x.toNat) s t := by
  obtain ⟨bs, hread, hlen, hbytes⟩ := memRead_bytes s h
  refine ⟨(s.setV (putBytes bs 0 s.v)).setI (s.indexAfter x), ?_, fun k hk => ?_, rfl,
    (frame_setV_putBytes s hlen).setI _⟩
  · rw [exec, execLdVMem, hread, orRaise_ok]
  · rw [setI_reg, reg_setV_putBytes, List.getD_eq_getElem?_getD, hbytes _ (Nat.lt_succ_of_le hk), Option.getD_some]

theorem exec_ldVMem_outside (h : memSize < s.i.toNat + (x.toNat + 1)) :
    exec (.ldVMem x) s = .fault (.outOfBoundsAccess (max s.i.toNat memSize)) := by
  rw [exec, execLdVMem, memRead_error s (Nat.succ_ne_zero _) h, orRaise_error]

/-- Settles O42, by whether the bytes to load lie inside memory. -/
theorem registerLoad : Obligations.RegisterLoad := by
  refine fun x => ⟨fun _ _ => decode_encode (i := .ldVMem x) rfl, fun s => ⟨fun h => ?inside, fun h => ?outside⟩⟩
  case inside =>
    obtain ⟨t, hexec, hregs, hindex, hframe⟩ := exec_ldVMem_inside (Nat.add_le_add_right h 1)
    exact ⟨t, hexec, hregs, hindex ▸ toNat_indexAfter s x, hframe⟩
  case outside => exact exec_ldVMem_outside (Nat.add_lt_add_right h 1)

/-- Settles O43: that the dump answered puts its range inside memory, so the load answers too, and it reads the bytes
where the dump left them. -/
theorem loadRestoresDump : Obligations.LoadRestoresDump := by
  intro x s t u hs hdump hcfg hmem hi
  obtain ⟨hrange, -⟩ := exec_ldMemV_next hdump
  obtain ⟨w, hload, hregs, -⟩ := exec_ldVMem_inside (hi ▸ hrange)
  refine ⟨w, hload, fun k hk => ?_⟩
  calc w.reg k = u.byteAt (u.i.toNat + k.toNat) := hregs k hk
    _ = t.byteAt (s.i.toNat + k.toNat) := by rw [hi, byteAt_congr hcfg hmem]
    _ = s.reg k := exec_ldMemV_reg hs hdump hk

end Sys2Proof.Machine

/-! SUPPORT. Clearing and drawing (43_display.md R96 to R100; 45_superchip.md R112): the frame of a new framebuffer,
what a draw does to each pixel and to VF, the sprites of the two draws as rows read at I, and a sprite drawn twice. -/

namespace Sys2Proof.Machine

variable {s t : State} {x y n : Nibble} {ps : List Part} {rs : Nibble → Prop}

/-! ## Frames -/

theorem frame_setDisplay (s : State) (r : Resolution) (g : Grid) (rs : Nibble → Prop) :
    Frame [.display] rs s (s.setDisplay r g) := by
  refine ⟨fun p hp => ?_, fun k _ => setDisplay_reg s r g k⟩
  cases p with
  | display => exact absurd List.mem_cons_self hp
  | mem => exact fun _ => rfl
  | _ => rfl

/-- Writing the flag as well needs VF among the registers that may change. -/
theorem Frame.setFlag (h : Frame ps rs s t) (hvf : rs vf) (c : Bool) : Frame ps rs s (t.setFlag c) := by
  obtain ⟨hparts, hregs⟩ := h
  refine ⟨fun p hp => ?_, fun r hr => ?_⟩
  · have hsame := hparts p hp
    cases p <;> exact hsame
  · have hne : r ≠ vf := fun hrv => hr (hrv ▸ hvf)
    exact (setFlag_reg_ne t c hne).trans (hregs r hr)

/-! ## Clearing -/

/-- Settles O45: the cleared grid is the blank grid of the current resolution. -/
theorem clearTurnsEveryPixelOff : Obligations.ClearTurnsEveryPixelOff :=
  ⟨fun _ _ => decode_encode (i := .cls) rfl, fun s =>
    ⟨s.clear, rfl, clear_pixel s, rfl, fits_blank s.res, frame_setDisplay ..⟩⟩

/-! ## What a draw does (43_display.md R97) -/

/-- The places a draw at (VX, VY) turns over. -/
def State.touched {width : Nat} (s : State) (x y : Nibble) (rows : List (BitVec width)) : List (Nat × Nat) :=
  spriteCells s.res (s.reg x).toNat (s.reg y).toNat rows

theorem Resolution.sixteen_le_width (r : Resolution) : 16 ≤ r.width := by cases r <;> decide
theorem Resolution.sixteen_le_height (r : Resolution) : 16 ≤ r.height := by cases r <;> decide

section
variable {width : Nat} {rows : List (BitVec width)}

theorem frame_draw (s : State) (x y : Nibble) (rows : List (BitVec width)) :
    Frame [.display] (fun r => r = 0xF) s (s.draw x y rows) :=
  (frame_setDisplay s _ _ fun r => r = 0xF).setFlag rfl _

theorem fits_draw (hfits : s.fb.fits s.res) (x y : Nibble) (rows : List (BitVec width)) :
    (s.draw x y rows).fb.fits (s.draw x y rows).res :=
  fits_drawSprite _ _ rows hfits

/-- A draw leaves its own place alone, unless a coordinate is VF. -/
theorem touched_draw (hx : x ≠ 0xF) (hy : y ≠ 0xF) (s : State) (rows : List (BitVec width)) :
    (s.draw x y rows).touched x y rows = s.touched x y rows := by
  obtain ⟨-, hregs⟩ := frame_draw s x y rows
  unfold State.touched
  rw [hregs x hx, hregs y hy]
  rfl

/-- The places of `touched` are the pixels a sprite touches, where `bit` gives the rows' bits from the left. -/
theorem mem_touched_iff {bit : Nat → Nat → Bool}
    (hbit : ∀ k c, (hk : k < rows.length) → c < width → (rows[k]).getMsbD c = bit k c) (px py : Nat) :
    (px, py) ∈ s.touched x y rows ↔
      Touches s.res.width s.res.height (s.reg x).toNat (s.reg y).toNat rows.length width bit px py := by
  rw [State.touched, mem_spriteCells]
  constructor
  · rintro ⟨k, c, hk, hc, hb, hp⟩
    obtain ⟨hpx, hpy⟩ := Prod.mk.inj hp
    exact ⟨k, c, hk, hc, hbit k c hk hc ▸ hb, hpx, hpy⟩
  · rintro ⟨k, c, hk, hc, hb, hpx, hpy⟩
    exact ⟨k, c, hk, hc, (hbit k c hk hc).trans hb, Prod.ext hpx hpy⟩

/-- Only a sprite without a set bit touches no pixel. -/
theorem touched_eq_nil_iff : s.touched x y rows = [] ↔ ∀ row ∈ rows, row = 0 := by
  simp only [State.touched, List.eq_nil_iff_forall_not_mem, mem_spriteCells]
  constructor
  · intro h row hrow
    obtain ⟨k, hk, rfl⟩ := List.getElem_of_mem hrow
    refine BitVec.eq_of_getMsbD_eq fun c hc => ?_
    have hoff : (rows[k]).getMsbD c = false := Bool.eq_false_iff.2 fun hb => h _ ⟨k, c, hk, hc, hb, rfl⟩
    exact hoff.trans BitVec.getMsbD_zero.symm
  · rintro h p ⟨k, c, hk, -, hb, -⟩
    rw [h _ (List.getElem_mem hk)] at hb
    simp at hb

theorem draw_fb_of_touched_nil (h : s.touched x y rows = []) : (s.draw x y rows).fb = s.fb := by
  have hcells : spriteCells s.res (s.reg x).toNat (s.reg y).toNat rows = [] := h
  simp [State.draw, drawSprite, hcells]

section
variable (hfits : s.fb.fits s.res) (hwidth : width ≤ 16) (hrows : rows.length ≤ 16)
include hfits hwidth hrows

theorem draw_pixel (px py : Nat) :
    (s.draw x y rows).pixel px py = (s.pixel px py ^^ decide ((px, py) ∈ s.touched x y rows)) := by
  obtain ⟨-, hpixel, -⟩ := drawSprite_spec (s.reg x).toNat (s.reg y).toNat rows hfits
    (hwidth.trans s.res.sixteen_le_width) (hrows.trans s.res.sixteen_le_height)
  exact hpixel px py

theorem draw_reg_vf :
    (s.draw x y rows).reg 0xF = if ∃ p ∈ s.touched x y rows, s.pixel p.1 p.2 = true then 1 else 0 := by
  obtain ⟨-, -, hflag⟩ := drawSprite_spec (s.reg x).toNat (s.reg y).toNat rows hfits
    (hwidth.trans s.res.sixteen_le_width) (hrows.trans s.res.sixteen_le_height)
  exact (setFlag_reg_vf _ _).trans (if_congr hflag rfl rfl)

/-- A draw is what R97 says of it, in the words of `Drawn`. -/
theorem drawn_draw {bit : Nat → Nat → Bool}
    (hbit : ∀ k c, (hk : k < rows.length) → c < width → (rows[k]).getMsbD c = bit k c) :
    Drawn s (s.draw x y rows) (s.reg x).toNat (s.reg y).toNat rows.length width bit := by
  have hmem := mem_touched_iff (s := s) (x := x) (y := y) hbit
  have hvf := draw_reg_vf (x := x) (y := y) hfits hwidth hrows
  have hon : (∃ p ∈ s.touched x y rows, s.pixel p.1 p.2 = true) ↔ ∃ px py,
      Touches s.res.width s.res.height (s.reg x).toNat (s.reg y).toNat rows.length width bit px py ∧
        s.pixel px py = true := by
    simp only [Prod.exists, hmem]
  refine ⟨fun px py _ _ => ⟨fun h => ?_, fun h => ?_⟩, fun h => hvf.trans (if_pos (hon.2 h)),
    fun h => hvf.trans (if_neg (mt hon.1 h))⟩
  · rw [draw_pixel hfits hwidth hrows, decide_eq_true ((hmem px py).2 h), Bool.xor_true]
  · rw [draw_pixel hfits hwidth hrows, decide_eq_false (mt (hmem px py).1 h), Bool.xor_false]

/-! ## A sprite drawn twice (43_display.md R98) -/

theorem draw_draw_pixel (hx : x ≠ 0xF) (hy : y ≠ 0xF) (px py : Nat) :
    ((s.draw x y rows).draw x y rows).pixel px py = s.pixel px py := by
  rw [draw_pixel (fits_draw hfits x y rows) hwidth hrows, touched_draw hx hy, draw_pixel hfits hwidth hrows,
    Bool.xor_assoc, Bool.xor_self, Bool.xor_false]

theorem draw_reg_vf_of_touched_nil (h : s.touched x y rows = []) : (s.draw x y rows).reg 0xF = 0 := by
  rw [draw_reg_vf hfits hwidth hrows, h]
  simp

theorem draw_reg_vf_of_clear (h : ∀ px py, s.pixel px py = false) : (s.draw x y rows).reg 0xF = 0 := by
  rw [draw_reg_vf hfits hwidth hrows]
  simp [h]

/-- On a clear framebuffer the first draw turns on what the second one collides with. -/
theorem draw_draw_reg_vf_of_clear (hx : x ≠ 0xF) (hy : y ≠ 0xF) (h : ∀ px py, s.pixel px py = false)
    (hne : s.touched x y rows ≠ []) : ((s.draw x y rows).draw x y rows).reg 0xF = 1 := by
  obtain ⟨p, hp⟩ := List.exists_mem_of_ne_nil _ hne
  have hon : (s.draw x y rows).pixel p.1 p.2 = true := by
    rw [draw_pixel hfits hwidth hrows, h, decide_eq_true hp, Bool.false_xor]
  rw [draw_reg_vf (fits_draw hfits x y rows) hwidth hrows, touched_draw hx hy, if_pos ⟨p, hp, hon⟩]

end
end

/-! ## The sprites at I -/

/-- The rows of DXYN. -/
def State.spriteBytes (s : State) (n : Nibble) : List Byte := (List.range n.toNat).map fun k => s.byteAt (s.i.toNat + k)

/-- The rows of DXY0 in `Extended` mode. -/
def State.spriteWords (s : State) : List Word := (List.range 16).map fun k => s.wordAt (s.i.toNat + 2 * k)

@[simp] theorem length_spriteBytes (s : State) (n : Nibble) : (s.spriteBytes n).length = n.toNat := by
  simp [State.spriteBytes]

theorem length_spriteBytes_le (s : State) (n : Nibble) : (s.spriteBytes n).length ≤ 16 :=
  (length_spriteBytes s n).trans_le n.isLt.le

@[simp] theorem length_spriteWords (s : State) : s.spriteWords.length = 16 := by simp [State.spriteWords]

theorem exec_drw_inside (h : n.toNat = 0 ∨ s.i.toNat + n.toNat ≤ memSize) :
    exec (.drw x y n) s = .next (s.draw x y (s.spriteBytes n)) := by
  rw [exec, execDrw, memRead_ok s h, orRaise_ok]
  rfl

theorem exec_drw_outside (hn : n ≠ 0) (h : memSize < s.i.toNat + n.toNat) :
    exec (.drw x y n) s = .fault (.outOfBoundsAccess (max s.i.toNat memSize)) := by
  rw [exec, execDrw, memRead_error s (mt (BitVec.eq_of_toNat_eq (y := 0)) hn) h, orRaise_error]

theorem exec_drwLarge_inside (h : s.i.toNat + 32 ≤ memSize) :
    exec (.drwLarge x y) s = .next (s.draw x y s.spriteWords) := by
  rw [exec, execDrwLarge, memReadWords_ok s (.inr h), orRaise_ok]
  rfl

theorem spriteBytes_getMsbD (k c : Nat) (hk : k < (s.spriteBytes n).length) (hc : c < 8) :
    ((s.spriteBytes n)[k]).getMsbD c = (s.byteAt (s.i.toNat + k)).getLsbD (7 - c) := by
  simp [State.spriteBytes, BitVec.getMsbD_eq_getLsbD, hc]

theorem spriteBytes_blank_iff :
    (∀ row ∈ s.spriteBytes n, row = 0) ↔ ∀ r, r < n.toNat → s.byteAt (s.i.toNat + r) = 0 := by
  simp [State.spriteBytes]

theorem wordAt_eq_zero_iff (a : Nat) : s.wordAt a = 0 ↔ s.byteAt a = 0 ∧ s.byteAt (a + 1) = 0 := by
  constructor
  · intro h
    rw [← wordAt_high, ← wordAt_low, h]
    decide
  · rintro ⟨hhigh, hlow⟩
    rw [State.wordAt, hhigh, hlow]
    rfl

/-- Row `k` holds the bytes `2 k` and `2 k + 1`. -/
theorem spriteWords_blank_iff :
    (∀ row ∈ s.spriteWords, row = 0) ↔ ∀ r, r < 32 → s.byteAt (s.i.toNat + r) = 0 := by
  simp only [State.spriteWords, List.forall_mem_map, List.mem_range, wordAt_eq_zero_iff]
  constructor
  · intro h r hr
    obtain ⟨heven, hodd⟩ := h (r / 2) (by omega)
    obtain hr2 | hr2 := Nat.mod_two_eq_zero_or_one r
    · rwa [show 2 * (r / 2) = r by omega] at heven
    · rwa [Nat.add_assoc, show 2 * (r / 2) + 1 = r by omega] at hodd
  · intro h k hk
    exact ⟨h (2 * k) (by omega), h (2 * k + 1) (by omega)⟩

/-! ## The draws -/

/-- Settles O46, by whether the sprite's bytes lie inside memory. -/
theorem drawTogglesSprite : Obligations.DrawTogglesSprite := by
  refine fun x y n => ⟨fun m e hn => ?decodes, fun s => ⟨fun hfits h => ?inside, exec_drw_outside⟩⟩
  case decodes => rw [decode_draw, decodeDraw, if_neg hn]
  case inside =>
    have hrange : n.toNat = 0 ∨ s.i.toNat + n.toNat ≤ memSize := h.imp_left (congrArg BitVec.toNat)
    have hdrawn := drawn_draw (x := x) (y := y) hfits (by decide) (length_spriteBytes_le s n) spriteBytes_getMsbD
    rw [length_spriteBytes] at hdrawn
    exact ⟨_, exec_drw_inside hrange, hdrawn, rfl, fits_draw hfits .., frame_draw ..⟩

/-- Either draw, where its bytes lie inside memory, draws rows that are blank when the bytes are all 0, and draws the
same rows again in the state it leaves. -/
theorem exec_draw_rows {i : Instr} {len : Nat}
    (hi : (i = .drw x y n ∧ len = n.toNat) ∨ (i = .drwLarge x y ∧ len = 32)) (hrange : len = 0 ∨ s.i.toNat + len ≤ memSize) :
    ∃ (width : Nat) (rows : List (BitVec width)), width ≤ 16 ∧ rows.length ≤ 16 ∧
      ((∀ row ∈ rows, row = 0) ↔ ∀ r, r < len → s.byteAt (s.i.toNat + r) = 0) ∧
      exec i s = .next (s.draw x y rows) ∧
      exec i (s.draw x y rows) = .next ((s.draw x y rows).draw x y rows) := by
  obtain ⟨rfl, rfl⟩ | ⟨rfl, rfl⟩ := hi
  · exact ⟨8, s.spriteBytes n, by decide, length_spriteBytes_le s n, spriteBytes_blank_iff, exec_drw_inside hrange,
      exec_drw_inside hrange⟩
  · have hwords : s.i.toNat + 32 ≤ memSize := hrange.resolve_left (by decide)
    exact ⟨16, s.spriteWords, le_rfl, (length_spriteWords s).le, spriteWords_blank_iff, exec_drwLarge_inside hwords,
      exec_drwLarge_inside hwords⟩

/-- Settles O48: the second draw turns over the places of the first, since the coordinates are not VF. -/
theorem drawingTwiceRestores : Obligations.DrawingTwiceRestores := by
  intro i x y n len s hi hx hy hfits hrange
  obtain ⟨width, rows, hwidth, hrows, hblank, hfirst, hsecond⟩ := exec_draw_rows hi hrange
  rw [← touched_eq_nil_iff (s := s) (x := x) (y := y)] at hblank
  refine ⟨_, _, hfirst, hsecond, draw_draw_pixel hfits hwidth hrows hx hy, fun hzero => ?blank, fun hclear => ?clear⟩
  case blank =>
    have hnil := hblank.2 hzero
    exact ⟨draw_fb_of_touched_nil hnil, draw_reg_vf_of_touched_nil hfits hwidth hrows hnil,
      draw_reg_vf_of_touched_nil (fits_draw hfits x y rows) hwidth hrows ((touched_draw hx hy s rows).trans hnil)⟩
  case clear =>
    refine ⟨draw_reg_vf_of_clear hfits hwidth hrows hclear, fun ⟨r, hr, hne⟩ => ?_⟩
    exact draw_draw_reg_vf_of_clear hfits hwidth hrows hx hy hclear fun hnil => hne (hblank.1 hnil r hr)

end Sys2Proof.Machine

/-! SUPPORT. Timers and keypad (44_timers_keypad.md R101 to R107): the frame of the timers and the control state, the
pressed keys as `lowestPressed` finds them, and the STEP of a waiting core (60_exceptions.md R128). -/

namespace Sys2Proof.Machine

variable {s : State} {x k : Nibble} {ps : List Part} {rs : Nibble → Prop}

/-! ## Frames -/

/-- Of the timers and the control state, what is not listed must be written back as it was. -/
theorem frame_setDt_setSt_setCtrl (s : State) (d b : Byte) (c : Ctrl) (hd : .delay ∈ ps ∨ d = s.dt)
    (hb : .sound ∈ ps ∨ b = s.st) (hc : .ctrl ∈ ps ∨ c = s.ctrl) :
    Frame ps rs s (((s.setDt d).setSt b).setCtrl c) := by
  refine ⟨fun p hp => ?_, fun _ _ => rfl⟩
  cases p with
  | delay => exact hd.resolve_left hp
  | sound => exact hb.resolve_left hp
  | ctrl => exact hc.resolve_left hp
  | display => exact ⟨rfl, rfl⟩
  | mem => exact fun _ => rfl
  | _ => rfl

theorem frame_setDt (s : State) (b : Byte) : Frame [.delay] (fun _ => False) s (s.setDt b) :=
  frame_setDt_setSt_setCtrl s b s.st s.ctrl (.inl List.mem_cons_self) (.inr rfl) (.inr rfl)

theorem frame_setSt (s : State) (b : Byte) : Frame [.sound] (fun _ => False) s (s.setSt b) :=
  frame_setDt_setSt_setCtrl s s.dt b s.ctrl (.inr rfl) (.inl List.mem_cons_self) (.inr rfl)

theorem frame_setCtrl (s : State) (c : Ctrl) : Frame [.ctrl] (fun _ => False) s (s.setCtrl c) :=
  frame_setDt_setSt_setCtrl s s.dt s.st c (.inr rfl) (.inr rfl) (.inl List.mem_cons_self)

/-! ## Timers -/

/-- Settles O51: each form copies one value, and the frame is that of the part it writes. -/
theorem timerInstructions : Obligations.TimerInstructions := by
  refine fun x => ⟨fun _ _ => ⟨?_, ?_, ?_⟩, fun s => ⟨?_, ?_, ?_⟩⟩
  · exact decode_encode (i := .ldVDt x) rfl
  · exact decode_encode (i := .ldDtV x) rfl
  · exact decode_encode (i := .ldStV x) rfl
  · exact ⟨_, rfl, reg_setReg_same .., frame_setReg ..⟩
  · exact ⟨_, rfl, setDt_dt .., frame_setDt ..⟩
  · exact ⟨_, rfl, setSt_st .., frame_setSt ..⟩

/-! ## Key skips -/

/-- The key a key instruction selects is the low nibble of VX (44_timers_keypad.md R104). -/
theorem eq_lowNibble (hk : k.toNat = (s.reg x &&& 0x0F).toNat) : k = s.lowNibble x :=
  BitVec.eq_of_toNat_eq (hk.trans (toNat_lowNibble s x).symm)

/-- Settles O30: the masked VX is the model's `lowNibble`, and each skip tests that key. -/
theorem keySkips : Obligations.KeySkips := by
  refine fun x => ⟨fun _ _ => ⟨?_, ?_⟩, fun s k hk => ?_⟩
  · exact decode_encode (i := .skp x) rfl
  · exact decode_encode (i := .sknp x) rfl
  · obtain rfl := eq_lowNibble hk
    exact ⟨next_skipIf s Iff.rfl, next_skipIf_not s (by rw [Bool.not_eq_true', Bool.not_eq_true])⟩

/-! ## The key wait (60_exceptions.md R128) -/

theorem lowestPressed_of_no_key (h : ∀ k, s.key k = false) : lowestPressed s.keys = none :=
  lowestPressed_eq_none.2 fun n hn => h (BitVec.ofNatLT n hn)

theorem lowestPressed_of_lowest_key (hk : s.key k = true) (hlow : ∀ j : Nibble, j.toNat < k.toNat → s.key j = false) :
    lowestPressed s.keys = some k.toNat :=
  lowestPressed_eq_some.2 ⟨k.isLt, hk, fun n hn => hlow (BitVec.ofNatLT n (hn.trans k.isLt)) hn⟩

theorem step_of_waiting_no_key (hctrl : s.ctrl = .waitingForKey x) (h : ∀ k, s.key k = false) : step s = .next s := by
  rw [step_eq, State.poll, hctrl, lowestPressed_of_no_key h]

/-- With a key found, the same STEP goes on as that of the core that has VX = k and runs. -/
theorem step_of_waiting_lowest_key (hctrl : s.ctrl = .waitingForKey x) (hk : s.key k = true)
    (hlow : ∀ j : Nibble, j.toNat < k.toNat → s.key j = false) :
    step s = step ((s.setReg x (BitVec.ofNat 8 k.toNat)).setCtrl .running) := by
  have hrun := step_of_running (setCtrl_ctrl (s.setReg x (BitVec.ofNat 8 k.toNat)) .running)
  rw [hrun, step_eq, State.poll, hctrl, lowestPressed_of_lowest_key hk hlow]

/-- Settles O52: FX0A writes the control state alone, and the STEP after it is that of a waiting core with the same
keys. -/
theorem keyWaitIsEntered : Obligations.KeyWaitIsEntered := by
  refine fun x => ⟨fun _ _ => decode_encode (i := .ldVK x) rfl, fun s => ?_⟩
  have hwait : (s.setCtrl (.waitingForKey x)).ctrl = .waitingForKey x := setCtrl_ctrl ..
  exact ⟨_, rfl, hwait, frame_setCtrl .., step_of_waiting_no_key hwait,
    fun k hk hlow => step_of_waiting_lowest_key hwait hk hlow⟩

end Sys2Proof.Machine

/-! SUPPORT. The SUPER-CHIP instructions (45_superchip.md R108 to R118): the address of a large glyph as a number, the
rows of the 16 by 16 draw bit by bit, what a built grid and the flag store answer, and a halted core along a run. -/

namespace Sys2Proof.Machine

variable {s : State} {x y : Nibble} {f : BigFont}

/-! ## The large font (45_superchip.md R118) -/

/-- In an allowed configuration the sum of FX30 does not wrap: the large font ends below 0x200. -/
theorem toNat_bigGlyphAddr (hc : s.cfg.wf = true) (hf : s.cfg.bigFont = some f) :
    (s.bigGlyphAddr x).toNat = f.base.toNat + 10 * (s.reg x &&& 0x0F).toNat := by
  have hbase : bigFontBase s.cfg = f.base := by rw [bigFontBase, hf, Option.getD_some]
  obtain ⟨hlow, -⟩ := bigFont_place_of_wf hc hf
  have hdigit := (s.lowNibble x).isLt
  rw [State.bigGlyphAddr, hbase, BitVec.toNat_add, BitVec.toNat_ofNat, ← toNat_lowNibble]
  omega

/-- Settles O38: FX30 writes I alone, with an exact sum. -/
theorem largeGlyphAddress : Obligations.LargeGlyphAddress := fun x =>
  ⟨decode_encode (i := .ldHF x) rfl, fun _ _ hc hf => ⟨_, rfl, toNat_bigGlyphAddr hc hf, frame_setI ..⟩⟩

/-! ## The 16 by 16 draw (45_superchip.md R112) -/

theorem byte_getMsbD (b : Byte) {c : Nat} (hc : c < 8) : b.getMsbD c = b.getLsbD (7 - c) := by
  rw [BitVec.getMsbD_eq_getLsbD, decide_eq_true hc, Bool.true_and]

/-- The bits of a big-endian word from the left: those of its high byte, then those of its low byte. -/
theorem wordAt_getMsbD (s : State) (a : Nat) {c : Nat} (hc : c < 16) :
    (s.wordAt a).getMsbD c = if c < 8 then (s.byteAt a).getLsbD (7 - c) else (s.byteAt (a + 1)).getLsbD (15 - c) := by
  rw [State.wordAt, wordOfBytes, BitVec.getMsbD_append]
  by_cases hhigh : c < 8
  · rw [if_neg (Nat.not_le.2 hhigh), if_pos hhigh, byte_getMsbD _ hhigh]
  · rw [if_pos (Nat.not_lt.1 hhigh), if_neg hhigh, byte_getMsbD _ (by omega), show 7 - (c - 8) = 15 - c by omega]

theorem spriteWords_getMsbD (k c : Nat) (hk : k < s.spriteWords.length) (hc : c < 16) :
    (s.spriteWords[k]).getMsbD c = if c < 8 then (s.byteAt (s.i.toNat + 2 * k)).getLsbD (7 - c)
      else (s.byteAt (s.i.toNat + 2 * k + 1)).getLsbD (15 - c) := by
  simp only [State.spriteWords, List.getElem_map, List.getElem_range, wordAt_getMsbD s _ hc]

theorem exec_drwLarge_outside (h : memSize < s.i.toNat + 32) :
    exec (.drwLarge x y) s = .fault (.outOfBoundsAccess (max s.i.toNat memSize)) := by
  rw [exec, execDrwLarge, memReadWords_error s (by decide) h, orRaise_error]

/-- Settles O47, by whether the sprite's 32 bytes lie inside memory. -/
theorem largeDrawTogglesSprite : Obligations.LargeDrawTogglesSprite := by
  refine fun x y => ⟨fun _ => decode_encode (i := .drwLarge x y) rfl, fun s =>
    ⟨fun hfits h => ?inside, fun h => ?outside⟩⟩
  case inside =>
    have hdrawn := drawn_draw (x := x) (y := y) hfits le_rfl (length_spriteWords s).le spriteWords_getMsbD
    rw [length_spriteWords] at hdrawn
    exact ⟨_, exec_drwLarge_inside (Nat.add_le_add_right h 1), hdrawn, rfl, fits_draw hfits .., frame_draw ..⟩
  case outside => exact exec_drwLarge_outside (Nat.add_lt_add_right h 1)

/-! ## Scrolling and the resolution (45_superchip.md R108 to R111, R115, R116) -/

/-- What an instruction that takes each pixel of the current grid from the old ones answers. -/
theorem next_remap (s : State) (g : (Nat → Nat → Bool) → Nat → Nat → Bool) :
    ∃ t, (.next (s.remap g) : Result) = .next t ∧ t.res = s.res ∧ t.fb.fits t.res ∧
      (∀ px py, px < s.res.width → py < s.res.height → t.pixel px py = g s.pixel px py) ∧
      Frame [.display] (fun _ => False) s t :=
  ⟨_, rfl, rfl, fits_tabulate .., fun px py hx hy => (remap_pixel s g px py).trans (if_pos ⟨hx, hy⟩),
    frame_setDisplay ..⟩

/-- Settles O49: each scroll is the map of its own displacement. -/
theorem scrollsMovePixels : Obligations.ScrollsMovePixels := by
  refine ⟨fun _ n => ?_, ?_, ?_, fun s => ⟨fun n => next_remap s _, next_remap s _, next_remap s _⟩⟩
  · exact decode_encode (i := .scd n) rfl
  · exact decode_encode (i := .scr) rfl
  · exact decode_encode (i := .scl) rfl

/-- What an instruction that selects a resolution answers, whichever was current. -/
theorem next_setResolution (s : State) (r : Resolution) :
    ∃ t, (.next (s.setResolution r) : Result) = .next t ∧ t.res = r ∧ t.fb.length = r.height ∧
      (∀ row ∈ t.fb, row.length = r.width) ∧ (∀ px py, t.pixel px py = false) ∧
      Frame [.display] (fun _ => False) s t :=
  have ⟨hheight, hwidth⟩ := fits_blank r
  ⟨_, rfl, rfl, hheight, hwidth, setResolution_pixel r s, frame_setDisplay ..⟩

/-- Settles O50, for either resolution. -/
theorem resolutionSwitchClears : Obligations.ResolutionSwitchClears :=
  ⟨fun _ => ⟨decode_encode (i := .low) rfl, decode_encode (i := .high) rfl⟩,
    fun s => ⟨next_setResolution s .lo, next_setResolution s .hi⟩⟩

/-! ## The halted core (45_superchip.md R117) -/

theorem step_of_halted (h : s.ctrl = .halted) : step s = .next s := by
  rw [step_eq, State.poll, h]

theorem run_succ_of_step {M : Host.Core} {s t : M.State} (n : Nat) (h : M.step s = .next t) :
    M.run (n + 1) s = M.run n t := by
  rw [Host.Core.run, h]

theorem run_of_halted (h : s.ctrl = .halted) (n : Nat) : Host.Core.run Sys2Proof.core n s = .next s := by
  induction n with
  | zero => rfl
  | succ n ih => exact (run_succ_of_step n (step_of_halted h)).trans ih

/-- KEY_DOWN and KEY_UP, refused or not, write the keypad at most (60_exceptions.md R133). -/
theorem keyTransaction_ctrl_pc (s : State) (k : Nat) (b : Bool) :
    (s.keyTransaction k b).2.ctrl = s.ctrl ∧ (s.keyTransaction k b).2.pc = s.pc := by
  unfold State.keyTransaction State.putKey
  split_ifs <;> exact ⟨rfl, rfl⟩

theorem transact_of_halted (h : s.ctrl = .halted) (a : Transaction) :
    (transact a s).2.ctrl = .halted ∧ (transact a s).2.pc = s.pc := by
  rw [← h]
  cases a with
  | step =>
    rw [transact, step_of_halted h]
    exact ⟨rfl, rfl⟩
  | keyDown k => exact keyTransaction_ctrl_pc s k true
  | keyUp k => exact keyTransaction_ctrl_pc s k false
  | tick | framebufferRead | soundRead => exact ⟨rfl, rfl⟩

/-- No transaction wakes a halted core or moves its PC. -/
theorem transactAll_of_halted (as : List Transaction) (h : s.ctrl = .halted) :
    (transactAll as s).ctrl = .halted ∧ (transactAll as s).pc = s.pc := by
  induction as generalizing s with
  | nil => exact ⟨h, rfl⟩
  | cons a as ih =>
    obtain ⟨hctrl, hpc⟩ := transact_of_halted h a
    exact hpc ▸ ih hctrl

/-- Settles O53: 00FD writes the control state alone, and what it leaves is a halted core. -/
theorem exitHaltsForEver : Obligations.ExitHaltsForEver := by
  refine ⟨decode_encode (i := .exit) rfl, fun s => ?_⟩
  have hhalt : (s.setCtrl .halted).ctrl = .halted := setCtrl_ctrl ..
  exact ⟨_, rfl, hhalt, frame_setCtrl .., run_of_halted hhalt, fun as => transactAll_of_halted as hhalt⟩

/-! ## The flag store (45_superchip.md R113, R114) -/

theorem frame_setFlags (s : State) (v : Vector Byte 16) : Frame [.flags] (fun _ => False) s (s.setFlags v) := by
  refine ⟨fun p hp => ?_, fun r _ => setFlags_reg s v r⟩
  cases p with
  | flags => exact absurd List.mem_cons_self hp
  | display => exact ⟨rfl, rfl⟩
  | mem => exact fun _ => rfl
  | _ => rfl

/-- A saved byte of the flag store is its register's, and past the last saved one the store keeps its own. -/
theorem getElem_putBytes_regsUpTo (s : State) (x k : Nibble) :
    (putBytes (s.regsUpTo x) 0 s.flags)[k.toNat]'k.isLt =
      if k.toNat ≤ x.toNat then s.reg k else s.flags[k.toNat]'k.isLt := by
  rw [getElem_putBytes, if_pos (Nat.zero_le _), Nat.sub_zero]
  split_ifs with hk
  · exact getD_regsUpTo s x k hk _
  · exact List.getD_eq_default _ _ (by rw [length_regsUpTo]; omega)

/-- Settles O54: each form copies the first X + 1 bytes of one store to the other. -/
theorem flagStoreSavesAndLoads : Obligations.FlagStoreSavesAndLoads := by
  refine fun x => ⟨fun _ => ⟨?_, ?_⟩, fun s => ⟨?_, ?_⟩⟩
  · exact decode_encode (i := .ldRV x) rfl
  · exact decode_encode (i := .ldVR x) rfl
  · exact ⟨_, rfl, getElem_putBytes_regsUpTo s x, frame_setFlags ..⟩
  · refine ⟨_, rfl, fun k hk => ?_, frame_setV_putBytes s (length_flagsUpTo s x)⟩
    exact (reg_setV_putBytes s _ k).trans (getD_flagsUpTo s x k hk _)

end Sys2Proof.Machine

/-! SUPPORT. The exceptions and the host's transactions (60_exceptions.md): the start of a STEP as one update, what an
Unknown word and a fault come from, the control state through one instruction, and what TICK, the keys and the read
ports answer. -/

namespace Sys2Proof.Machine

variable {s t u : State} {i : Instr} {e : Fault} {x : Nibble} {ps : List Part} {rs : Nibble → Prop}

/-! ## The invariant over transactions -/

/-- Settles O18, by `transact_inv`. -/
theorem transactionsPreserveInvariant : Obligations.TransactionsPreserveInvariant := fun a _ hs => transact_inv a hs

/-! ## The start of a STEP (30_encoding.md R63) -/

theorem poll_of_running (h : s.ctrl = .running) : s.poll = some s := by
  rw [State.poll, h]

theorem step_of_poll (h : s.poll = some u) : step s = u.fetchExecute := by
  rw [step_eq, h]

/-- Whether it resolved a key wait or not, the poll leaves a running core whose V registers are all that can differ. -/
theorem poll_eq_setV (h : s.poll = some u) : ∃ v, u = (s.setV v).setCtrl .running := by
  obtain ⟨-, ⟨hrun, rfl⟩ | ⟨x, k, -, -, rfl⟩⟩ := poll_some s h
  · exact ⟨u.v, by rw [← hrun]; rfl⟩
  · exact ⟨_, rfl⟩

/-! ## Unknown words (60_exceptions.md R121) -/

theorem unknownWord_of_fail {w pc0 : Word} (h : s.cfg.unknownPolicy = .fail) :
    unknownWord w pc0 s = .fault (.unknownOpcode w pc0) := by
  rw [unknownWord, h, raise]

theorem unknownWord_of_skip {w pc0 : Word} (h : s.cfg.unknownPolicy = .skip) : unknownWord w pc0 s = .next s := by
  rw [unknownWord, h]

theorem fetchExecute_of_unknown (hpc : s.pc.toNat ≤ 0xFFE) (hd : decodeIn s.cfg (s.wordAt s.pc.toNat) = none) :
    s.fetchExecute = unknownWord (s.wordAt s.pc.toNat) s.pc s.advance := by
  rw [State.fetchExecute, fetch_ok s (Nat.add_le_add_right hpc 2), orRaise_ok, hd]

/-- The word and its address are those of the STEP's start: resolving a key wait changes neither. -/
theorem step_of_unknown (hu : s.poll = some u) (hpc : s.pc.toNat ≤ 0xFFE)
    (hd : decodeIn s.cfg (s.wordAt s.pc.toNat) = none) :
    step s = unknownWord (s.wordAt s.pc.toNat) s.pc u.advance := by
  rw [step_of_poll hu]
  obtain ⟨v, rfl⟩ := poll_eq_setV hu
  exact fetchExecute_of_unknown hpc hd

/-- Writing the control state as well adds it to what changed. -/
theorem Frame.setCtrl (h : Frame ps rs s t) (c : Ctrl) : Frame (ps ++ [.ctrl]) rs s (t.setCtrl c) := by
  obtain ⟨hparts, hregs⟩ := h
  refine ⟨fun p hp => ?_, hregs⟩
  have hsame := hparts p fun hps => hp (List.mem_append_left _ hps)
  cases p with
  | ctrl => exact absurd (List.mem_append_right _ List.mem_cons_self) hp
  | _ => exact hsame

/-- A poll that resolves a key wait writes its register and the control state, and nothing else. -/
theorem poll_of_waiting (hu : s.poll = some u) (hctrl : s.ctrl = .waitingForKey x) :
    u.ctrl = .running ∧ u.pc = s.pc ∧ Frame [.ctrl] (fun r => r = x) s u := by
  obtain ⟨hrun, ⟨hc, -⟩ | ⟨y, k, hc, -, rfl⟩⟩ := poll_some s hu
  · cases hctrl.symm.trans hc
  · obtain rfl : x = y := Ctrl.waitingForKey.inj (hctrl.symm.trans hc)
    exact ⟨hrun, rfl, (frame_setReg s x _).setCtrl .running⟩

/-- Settles O13, by the policy; under `Skip` the rest is what the poll wrote. -/
theorem unknownWordFailsOrIsSkipped : Obligations.UnknownWordFailsOrIsSkipped := by
  intro s u hu hpc hd
  have hstep := step_of_unknown hu hpc hd
  have hcfg : u.advance.cfg = s.cfg := by rw [advance_eq, setPc_cfg, poll_cfg hu]
  refine ⟨fun hfail => ?fail, fun hskip => ⟨?skip, fun hrun => ?running, fun x => poll_of_waiting hu⟩⟩
  case fail =>
    rw [unknownWord_of_fail (hcfg ▸ hfail)] at hstep
    exact ⟨hstep, by rw [transact, hstep]⟩
  case skip => exact hstep.trans (unknownWord_of_skip (hcfg ▸ hskip))
  case running => exact Option.some.inj (hu.symm.trans (poll_of_running hrun))

/-- Settles O14, by whether a key is pressed. -/
theorem keyWaitPoll : Obligations.KeyWaitPoll := fun _ _ hctrl =>
  ⟨step_of_waiting_no_key hctrl, fun _ => step_of_waiting_lowest_key hctrl⟩

/-! ## The errors (60_exceptions.md R119) -/

/-- No instruction is refused: those that check an address or the depth first go on to a state or raise. -/
theorem exec_ne_refused (i : Instr) (s : State) (r : Refusal) : exec i s ≠ .refused r := by
  intro h
  cases i with
  | ret | call nnn | drw x y n | drwLarge x y | ldB x | ldMemV x | ldVMem x =>
    obtain ⟨a, -, hn⟩ := orRaise_eq_refused.1 h
    cases hn
  | _ => cases h

/-- The instruction reaches memory from I on and the range it needs leaves the address space, in the words of O15. -/
def LeavesMemory (i : Instr) (s : State) : Prop :=
  (∃ x y n, i = .drw x y n ∧ n ≠ 0 ∧ 0x1000 < s.i.toNat + n.toNat) ∨
  (∃ x y, i = .drwLarge x y ∧ 0x1000 < s.i.toNat + 32) ∨
  (∃ x, i = .ldB x ∧ 0x1000 < s.i.toNat + 3) ∨
  (∃ x, (i = .ldMemV x ∨ i = .ldVMem x) ∧ 0xFFF < s.i.toNat + x.toNat)

theorem eq_of_fault {e' : Fault} (h : (.fault e' : Result) = .fault e) : e = e' := (Host.Outcome.fault.inj h).symm

/-- What goes on to a state but under one condition, and raises an error under it, raises that error for that cause. -/
theorem cause_of_fault {p : Prop} {r : Result} {e' : Fault} (hgo : ¬ p → ∃ t, r = .next t) (hraise : p → r = .fault e')
    (h : r = .fault e) : e = e' ∧ p := by
  by_cases hp : p
  · exact ⟨eq_of_fault ((hraise hp).symm.trans h), hp⟩
  · obtain ⟨t, hn⟩ := hgo hp
    cases hn.symm.trans h

/-- The errors an instruction can raise, each with its cause (60_exceptions.md R119); PC is already past its word. -/
theorem exec_eq_fault (h : exec i s = .fault e) :
    (e = .stackOverflow (s.pc - 2) ∧ s.stack.length = 16 ∧ ∃ nnn, i = .call nnn) ∨
      (e = .stackUnderflow (s.pc - 2) ∧ s.stack = [] ∧ i = .ret) ∨
      (e = .outOfBoundsAccess (max s.i.toNat memSize) ∧ LeavesMemory i s) := by
  cases i with
  | call nnn =>
    obtain ⟨he, hfull⟩ := cause_of_fault (fun hroom => ⟨_, exec_call_of_room nnn hroom⟩) (exec_call_of_full nnn) h
    exact .inl ⟨he, hfull, nnn, rfl⟩
  | ret =>
    obtain ⟨he, hnil⟩ := cause_of_fault
      (fun hne => ⟨_, exec_ret_of_append (List.dropLast_concat_getLast hne).symm⟩) exec_ret_of_nil h
    exact .inr (.inl ⟨he, hnil, rfl⟩)
  | drw x y n =>
    have hinside (hin : ¬ (n ≠ 0 ∧ memSize < s.i.toNat + n.toNat)) : n.toNat = 0 ∨ s.i.toNat + n.toNat ≤ memSize :=
      (not_and_or.1 hin).imp (fun hn => congrArg BitVec.toNat (not_not.1 hn)) Nat.not_lt.1
    obtain ⟨he, hn, hout⟩ := cause_of_fault (fun hin => ⟨_, exec_drw_inside (hinside hin)⟩)
      (fun hp => exec_drw_outside hp.1 hp.2) h
    exact .inr (.inr ⟨he, .inl ⟨x, y, n, rfl, hn, hout⟩⟩)
  | drwLarge x y =>
    obtain ⟨he, hout⟩ := cause_of_fault (fun hin => ⟨_, exec_drwLarge_inside (Nat.not_lt.1 hin)⟩) exec_drwLarge_outside h
    exact .inr (.inr ⟨he, .inr (.inl ⟨x, y, rfl, hout⟩)⟩)
  | ldB x =>
    obtain ⟨he, hout⟩ := cause_of_fault (fun hin => ⟨_, exec_ldB_inside (Nat.not_lt.1 hin)⟩) exec_ldB_outside h
    exact .inr (.inr ⟨he, .inr (.inr (.inl ⟨x, rfl, hout⟩))⟩)
  | ldMemV x =>
    obtain ⟨he, hout⟩ := cause_of_fault (fun hin => ⟨_, exec_ldMemV_inside (Nat.not_lt.1 hin)⟩) exec_ldMemV_outside h
    exact .inr (.inr ⟨he, .inr (.inr (.inr ⟨x, .inl rfl, Nat.lt_of_succ_lt_succ hout⟩))⟩)
  | ldVMem x =>
    obtain ⟨he, hout⟩ := cause_of_fault
      (fun hin => (exec_ldVMem_inside (Nat.not_lt.1 hin)).imp fun _ ht => ht.1) exec_ldVMem_outside h
    exact .inr (.inr ⟨he, .inr (.inr (.inr ⟨x, .inr rfl, Nat.lt_of_succ_lt_succ hout⟩))⟩)
  | _ => cases h

theorem step_ne_refused (s : State) (r : Refusal) : step s ≠ .refused r := by
  intro h
  cases hp : s.poll with
  | none =>
    rw [step_eq, hp] at h
    cases h
  | some u =>
    rw [step_of_poll hp] at h
    rcases fetchExecute_cases u with ⟨-, he⟩ | ⟨-, ⟨i, -, he⟩ | ⟨-, ⟨-, he⟩ | ⟨-, he⟩⟩⟩ <;> rw [he] at h
    · cases h
    · exact exec_ne_refused i _ r h
    · cases h
    · cases h

/-- Everything a STEP that fails can have failed at: the fetch, the instruction fetched, or an Unknown word under `Fail`
(30_encoding.md R63). -/
theorem step_eq_fault (h : step s = .fault e) :
    (memSize < s.pc.toNat + 2 ∧ e = .outOfBoundsAccess (max s.pc.toNat memSize)) ∨
      (s.pc.toNat + 2 ≤ memSize ∧
        ((∃ i v, decodeIn s.cfg (s.wordAt s.pc.toNat) = some i ∧
            exec i ((s.setV v).setCtrl .running).advance = .fault e) ∨
          (decodeIn s.cfg (s.wordAt s.pc.toNat) = none ∧ s.cfg.unknownPolicy = .fail ∧
            e = .unknownOpcode (s.wordAt s.pc.toNat) s.pc))) := by
  cases hp : s.poll with
  | none =>
    rw [step_eq, hp] at h
    cases h
  | some u =>
    rw [step_of_poll hp] at h
    obtain ⟨v, rfl⟩ := poll_eq_setV hp
    rcases fetchExecute_cases ((s.setV v).setCtrl .running) with
      ⟨hpc, he⟩ | ⟨hpc, ⟨i, hd, he⟩ | ⟨hd, ⟨hfail, he⟩ | ⟨-, he⟩⟩⟩ <;> rw [he] at h
    · exact .inl ⟨hpc, eq_of_fault h⟩
    · exact .inr ⟨hpc, .inl ⟨i, v, hd, h⟩⟩
    · exact .inr ⟨hpc, .inr ⟨hd, hfail, eq_of_fault h⟩⟩
    · cases h

/-- Settles O15, by where the STEP failed; an instruction's own errors are those of `exec_eq_fault`. -/
theorem stepErrorsHaveTheirCause : Obligations.StepErrorsHaveTheirCause := by
  refine fun s => ⟨step_ne_refused s, fun e h => ?_⟩
  rcases step_eq_fault h with ⟨hpc, he⟩ | ⟨hpc, ⟨i, v, hd, hexec⟩ | ⟨hd, hfail, he⟩⟩
  · exact .inr (.inr (.inr (.inl ⟨he, Nat.lt_of_add_lt_add_right (n := 2) hpc⟩)))
  · have hpc0 : s.pc + 2 - 2 = s.pc := BitVec.add_sub_cancel ..
    rcases exec_eq_fault hexec with ⟨he, hfull, nnn, rfl⟩ | ⟨he, hnil, rfl⟩ | ⟨he, hout⟩
    · exact .inr (.inl ⟨he.trans (congrArg _ hpc0), hfull, nnn, hd⟩)
    · exact .inr (.inr (.inl ⟨he.trans (congrArg _ hpc0), hnil, hd⟩))
    · exact .inr (.inr (.inr (.inr ⟨he, Nat.le_of_add_le_add_right hpc, i, hd, hout⟩)))
  · exact .inl ⟨he, Nat.le_of_add_le_add_right hpc, hfail, hd⟩

/-! ## A STEP that fails (60_exceptions.md R120) -/

theorem transact_step_of_fault (h : step s = .fault e) : transact .step s = (.err e, s) := by
  rw [transact, h]

/-- A STEP transaction that answers an error was a step that raised it, and kept the state. -/
theorem transact_step_eq_err (h : transact .step s = (.err e, t)) : step s = .fault e ∧ t = s := by
  rw [transact] at h
  cases hs : step s <;> rw [hs] at h <;> cases h
  exact ⟨rfl, rfl⟩

/-- Settles O16: the next STEP starts from the same state. -/
theorem failedStepKeepsState : Obligations.FailedStepKeepsState := by
  intro s t e h
  obtain ⟨hfault, rfl⟩ := transact_step_eq_err h
  exact ⟨rfl, transact_step_of_fault hfault⟩

/-! ## The control state (60_exceptions.md R127) -/

/-- FX0A enters the key wait, 00FD halts, and every other instruction leaves the control state as it was. -/
theorem exec_ctrl (h : exec i s = .next t) :
    (∃ x, i = .ldVK x ∧ t.ctrl = .waitingForKey x) ∨ (i = .exit ∧ t.ctrl = .halted) ∨
      ((∀ x, i ≠ .ldVK x) ∧ i ≠ .exit ∧ t.ctrl = s.ctrl) := by
  cases i with
  | ldVK x =>
    obtain rfl := eq_of_next h
    exact .inl ⟨x, rfl, rfl⟩
  | exit =>
    obtain rfl := eq_of_next h
    exact .inr (.inl ⟨rfl, rfl⟩)
  | _ => exact .inr (.inr ⟨by simp, by simp, by simpa using (exec_writesOnlyNamed h).ctrl⟩)

/-- A running core's STEP that succeeds executed what it fetched or skipped an Unknown word. -/
theorem step_eq_next_of_running (hrun : s.ctrl = .running) (h : step s = .next t) :
    (∃ i, decodeIn s.cfg (s.wordAt s.pc.toNat) = some i ∧ exec i s.advance = .next t) ∨
      (decodeIn s.cfg (s.wordAt s.pc.toNat) = none ∧ t = s.advance) := by
  have hpoll := poll_of_running hrun
  rcases step_eq_next h with ⟨hnone, -⟩ | ⟨u, hu, -, hcase⟩
  · cases hpoll.symm.trans hnone
  · obtain rfl := Option.some.inj (hpoll.symm.trans hu)
    exact hcase.imp_right fun ⟨hd, _, ht⟩ => ⟨hd, ht⟩

/-- Settles O22, by the control state the STEP starts in. -/
theorem controlStateTransitions : Obligations.ControlStateTransitions := by
  refine fun s => ⟨fun t h => ⟨fun hrun i hd => ?executed, fun hrun hd => ?skipped, fun x hctrl hnone => ?noKey,
    fun x hctrl k hk hlow => ?key, fun hhalt => ?halted⟩, fun e t h => ?failed⟩
  case executed =>
    rcases step_eq_next_of_running hrun h with ⟨j, hj, hexec⟩ | ⟨hnone, -⟩
    · obtain rfl := Option.some.inj (hd.symm.trans hj)
      have hctrl : s.advance.ctrl = .running := by rw [advance_eq, setPc_ctrl, hrun]
      exact hctrl ▸ exec_ctrl hexec
    · cases hnone.symm.trans hd
  case skipped =>
    rcases step_eq_next_of_running hrun h with ⟨j, hj, -⟩ | ⟨-, rfl⟩
    · cases hd.symm.trans hj
    · exact hrun
  case noKey => exact eq_of_next ((step_of_waiting_no_key hctrl hnone).symm.trans h)
  case key => exact (step_of_waiting_lowest_key hctrl hk hlow).symm.trans h
  case halted => exact eq_of_next ((step_of_halted hhalt).symm.trans h)
  case failed => rw [(transact_step_eq_err h).2]

/-! ## TICK (60_exceptions.md R129) -/

/-- One timer's part of TICK as a number: the clamp at 0 is that of subtraction. -/
theorem toNat_tickTimer (b : Byte) : (tickTimer b).toNat = b.toNat - 1 := by
  unfold tickTimer
  split_ifs with h0
  · rw [h0]; rfl
  · have hb := b.isLt
    have hpos : b.toNat ≠ 0 := fun h => h0 (BitVec.eq_of_toNat_eq h)
    rw [toNat_byte_sub, show (1 : Byte).toNat = 1 from rfl]
    omega

theorem frame_tick (s : State) : Frame [.delay, .sound] (fun _ => False) s s.tick :=
  frame_setDt_setSt_setCtrl s (tickTimer s.dt) (tickTimer s.st) s.ctrl (.inl (by simp)) (.inl (by simp)) (.inr rfl)

/-- Settles O55: TICK writes the two timers and no other part. -/
theorem tickDecrementsTimers : Obligations.TickDecrementsTimers := fun s =>
  ⟨s.tick, rfl, toNat_tickTimer s.dt, toNat_tickTimer s.st, frame_tick s⟩

/-! ## The keys (60_exceptions.md R133) -/

theorem frame_setKeys (s : State) (l : Vector Bool 16) : Frame [.keys] (fun _ => False) s (s.setKeys l) := by
  refine ⟨fun p hp => ?_, fun r _ => setKeys_reg s l r⟩
  cases p with
  | keys => exact absurd List.mem_cons_self hp
  | display => exact ⟨rfl, rfl⟩
  | mem => exact fun _ => rfl
  | _ => rfl

variable {k : Nat} {b : Bool}

theorem keyTransaction_of_lt (s : State) (hk : k < 16) (b : Bool) :
    s.keyTransaction k b = (.done, s.setKeys (s.keys.set k b hk)) := by
  rw [State.keyTransaction, State.putKey, dif_pos hk]

theorem keyTransaction_of_ge (s : State) (hk : 16 ≤ k) (b : Bool) :
    s.keyTransaction k b = (.refused (.keyOutOfRange k), s) := by
  rw [State.keyTransaction, State.putKey, dif_neg (Nat.not_lt.2 hk)]

/-- Setting a key to the level it has changes nothing. -/
theorem keyTransaction_same (hk : k < 16) (h : s.keys[k] = b) : s.keyTransaction k b = (.done, s) := by
  rw [keyTransaction_of_lt s hk, ← h, Vector.set_getElem_self]
  rfl

/-- A second transaction on a key overwrites what the first one set. -/
theorem keyTransaction_keyTransaction (s : State) (hk : k < 16) (c b : Bool) :
    (s.keyTransaction k c).2.keyTransaction k b = s.keyTransaction k b := by
  rw [keyTransaction_of_lt s hk, keyTransaction_of_lt _ hk, keyTransaction_of_lt s hk, setKeys_keys, Vector.set_set]
  rfl

/-- Settles O56: inside the interface a key transaction writes the keypad, outside it is refused. -/
theorem keyTransactionsSetLevel : Obligations.KeyTransactionsSetLevel := by
  refine fun s k => ⟨fun hk => ⟨?down, ?up, fun hon => ?pressed, fun hoff => ⟨?released, ?both⟩⟩, fun hk => ?refused⟩
  case down => exact ⟨_, keyTransaction_of_lt s hk true, rfl, frame_setKeys ..⟩
  case up => exact ⟨_, keyTransaction_of_lt s hk false, rfl, frame_setKeys ..⟩
  case pressed => exact congrArg Prod.snd (keyTransaction_same hk hon)
  case released => exact congrArg Prod.snd (keyTransaction_same hk hoff)
  case both =>
    have hup : (s.keyTransaction k true).2.keyTransaction k false = (.done, s) :=
      (keyTransaction_keyTransaction s hk true false).trans (keyTransaction_same hk hoff)
    exact congrArg Prod.snd hup
  case refused => exact ⟨keyTransaction_of_ge s hk true, keyTransaction_of_ge s hk false⟩

/-! ## The read ports (60_exceptions.md R131, R134) -/

/-- Settles O57: the snapshot is the tabulated current grid. -/
theorem readPortsObserve : Obligations.ReadPortsObserve := by
  intro s
  obtain ⟨hheight, hwidth⟩ := fits_tabulate s.res s.fb.pixel
  refine ⟨⟨_, rfl, bne_iff_ne⟩, _, rfl, ?_, hheight, hwidth, fun px py hx hy => ?_⟩
  · cases hres : s.res <;> simp [State.framebufferRead, Resolution.width, Resolution.height, hres]
  · exact (pixel_tabulate s.res s.fb.pixel px py).trans (if_pos ⟨hx, hy⟩)

end Sys2Proof.Machine

/-! SUPPORT. INIT with a program of no bytes (70_reset_and_hazards.md R139, R141): the state it leaves, of which
`State.reset` is one, and the STEP that follows. -/

namespace Sys2Proof.Machine

theorem initCore_nil (c : Config) (seed : Nat) : initCore c seed [] = .ok (State.fresh c seed) := rfl

/-! ## The reset state (10_state.md R35) -/

/-- Settles O3: `State.reset` is the fresh state of the model's configuration and seed. -/
theorem resetIsInitWithoutProgram : Obligations.ResetIsInitWithoutProgram := initCore_nil resetConfig resetSeed

theorem resetConfig_wf : resetConfig.wf = true := by decide

/-- Settles O19: reset is an INIT with an allowed configuration. -/
theorem resetMeetsInvariant : Obligations.ResetMeetsInvariant := initCore_inv resetConfig_wf resetIsInitWithoutProgram

/-! ## The first STEP (70_reset_and_hazards.md R141) -/

/-- Both bytes of the first fetch lie above the fonts. -/
theorem fresh_wordAt_progBase {c : Config} (hc : c.wf = true) (seed : Nat) :
    (State.fresh c seed).wordAt progBase = 0 := by
  rw [wordAt_eq_zero_iff, fresh_byteAt, fresh_byteAt]
  exact ⟨resetByte_program_area hc (Nat.le_refl _), resetByte_program_area hc (Nat.le_succ _)⟩

/-- 0x0000 is in R60's list: NNN 000 is no instruction of the leading nibble 0. -/
theorem decode_zero (m : Mode) (e : Bool) : decode m e 0x0000 = none := by
  rw [illegalWordsAreUnknown]
  exact .inl ⟨rfl, by decide, by decide, by simp [nnnField]⟩

/-- Settles O4: the word at PC is 0x0000, which decodes in no mode, and the policy is `Fail`. -/
theorem emptyProgramFailsAtFirstStep : Obligations.EmptyProgramFailsAtFirstStep := by
  intro c seed s hfail hc hinit
  obtain rfl := Except.ok.inj ((initCore_nil c seed).symm.trans hinit)
  have hword : (State.fresh c seed).wordAt (State.fresh c seed).pc.toNat = 0 := fresh_wordAt_progBase hc seed
  have hstep := step_of_unknown (poll_of_running (s := State.fresh c seed) rfl) (show 0x200 ≤ 0xFFE by decide)
    (hword ▸ decode_zero c.mode c.schipExtra)
  rw [hstep, hword]
  exact unknownWord_of_fail hfail

end Sys2Proof.Machine
